-- ==== Sys2Proof/Word.lean ====
section
/-! DEFINITION. The word types of the block: bytes, bus words, working registers and cipher blocks
(00_scope.md R7, R10; 10_state.md R31, R33). -/

namespace Sys2Proof

/-- A byte (00_scope.md R10). -/
abbrev Byte := BitVec 8

/-- A host-visible register and a bus word (10_state.md R33). -/
abbrev Word := BitVec 32

/-- A register of the chaining engine: the accumulator `A` or an `R[i]` (10_state.md R31). -/
abbrev Half := BitVec 64

/-- A block of the cipher, 16 bytes (00_scope.md R7); the byte of lowest index is the most significant. -/
abbrev Block := BitVec 128

end Sys2Proof
end

