-- ==== Sys2Proof/Config.lean ====
section
/-! DEFINITION. The parameters of 00_scope.md R8. The plain ones are a record that the machine's state
carries and no step writes, so a claim over all states is a claim over all parameters (log 1). The
cipher is opaque (log 3). -/

namespace Sys2Proof

/-- BUS_ERROR_ACTION: what the platform does with a BUS_ERROR response, left OPEN by 20_memory.md R87
(log 5). A model of a host program takes `fault` (00_scope.md R8; 93_implementation_defined.md I9). -/
inductive BusErrorAction where
  /-- the host is told and goes on -/
  | report
  /-- the host's program stops with a fault -/
  | fault
  deriving DecidableEq, Repr

/-- The plain parameters of 00_scope.md R8. -/
structure Config where
  /-- N_MAX, the largest block count -/
  nMax : Nat
  /-- ALLOW_SINGLE_BLOCK, fixed at 0 by the spec; 1 is the named variant (log 2) -/
  allowSingleBlock : Bool
  /-- PAD_ZERO_CHECK, fixed at 0 by the spec; 1 is the named variant (log 2) -/
  padZeroCheck : Bool
  /-- BASE, the block's address on the platform bus (log 4) -/
  base : Nat
  /-- BUS_ERROR_ACTION (log 5) -/
  busErrorAction : BusErrorAction
  /-- IRQ_ROUTING: whether the platform lets `irq` reach the host (log 6) -/
  irqRouted : Bool
  deriving DecidableEq, Repr

/-- `BUF_BYTES = 8 * (N_MAX + 1)` (00_scope.md R8). -/
def Config.bufBytes (c : Config) : Nat := 8 * (c.nMax + 1)

/-- The parameters of the machine after reset: `N_MAX = 8`, the example value of 95_test_vectors.md,
the fixed values of R8, and BUS_ERROR_ACTION `fault`, as R8 says of a model of a host program. DESIGN
CHOICE (logs 1, 4 and 6): N_MAX, BASE and IRQ_ROUTING are OPEN in the spec. -/
def Config.example8 : Config where
  nMax := 8
  allowSingleBlock := false
  padZeroCheck := false
  base := 0
  busErrorAction := .fault
  irqRouted := true

/-- The parameter `AES` (00_scope.md R8): for a key size in bits and a key, a permutation of blocks.
`AES_Enc` is the permutation and `AES_Dec` its inverse, so the two inverse laws R8 allows a model to
assume hold, and nothing else can be proved of it (log 3). -/
opaque Config.aes : (ks : Nat) → (key : List Byte) → Equiv.Perm Block

end Sys2Proof
end

