-- ==== Sys2Proof/Syntax.lean ====
section
/-! DEFINITION. The command set (30_encoding.md R111), the names of the host-visible registers
(10_state.md R33) and the host's access notation (30_encoding.md R116). -/

namespace Sys2Proof

/-- The commands, one constructor per row of opcode_table.json. A command word carries no operand
(30_encoding.md R112). -/
inductive Instr where
  /-- no operation, word 0x00000000 (42_commands.md R235) -/
  | nop
  /-- RFC 3394 key wrap, word 0x00000001 (42_commands.md R236) -/
  | wrap
  /-- RFC 3394 key unwrap, word 0x00000002 (42_commands.md R237) -/
  | unwrap
  /-- RFC 5649 key wrap with padding, word 0x00000003 (42_commands.md R238) -/
  | wrapPad
  /-- RFC 5649 key unwrap with padding, word 0x00000004 (42_commands.md R239) -/
  | unwrapPad
  deriving DecidableEq, Repr

/-- The host-visible registers by name, `REG` of 30_encoding.md R116. -/
inductive HostReg where
  | ctrl
  | cmd
  | status
  | kekLen
  | dataLen
  | outLen
  | caps
  /-- `KEK[w]` -/
  | kek (w : Nat)
  /-- `BUF[k]`, word `k` of the buffer -/
  | buf (k : Nat)
  deriving DecidableEq, Repr

/-- The width of a bus access. Only 32 bits is served (20_memory.md R82). -/
inductive Width where
  | w8
  | w16
  | w32
  | w64
  deriving DecidableEq, Repr

/-- One line of a host program (30_encoding.md R116). Offsets are bytes from `BASE`; the access is
the triple (direction, offset, data). A written value is carried as 32 bits, because an access of
any other width is never served (20_memory.md R82; log 16). -/
inductive HostOp where
  /-- `rd`: one read -/
  | read (width : Width) (off : Nat)
  /-- `wr`: one write -/
  | write (width : Width) (off : Nat) (v : Word)
  /-- `poll`: the read of `off` repeated until `(data AND mask) = val` -/
  | poll (off : Nat) (mask val : Word)
  /-- "(wait for irq)" of 95_test_vectors.md P3: no access, waits until `irq` reaches the host (log 14) -/
  | waitIrq
  deriving DecidableEq, Repr

end Sys2Proof
end

