-- ==== Sys2Proof/WellFormed.lean ====
section
/-! DEFINITION. Which terms of the syntax and which parameters are well formed. -/

namespace Sys2Proof

/-- A command word carries no operand, immediate or register number (30_encoding.md R112), so every
command is well formed. -/
def Instr.wf : Instr → Bool
  | .nop => true
  | .wrap => true
  | .unwrap => true
  | .wrapPad => true
  | .unwrapPad => true

/-- `KEK[w]` exists for `w < 8` and `BUF[k]` for `k < BUF_BYTES / 4` (10_state.md R33). -/
def HostReg.wf (c : Config) : HostReg → Bool
  | .kek w => decide (w < 8)
  | .buf k => decide (k < c.bufBytes / 4)
  | .ctrl => true
  | .cmd => true
  | .status => true
  | .kekLen => true
  | .dataLen => true
  | .outLen => true
  | .caps => true

/-- The bounds 00_scope.md R8 puts on the parameters: `2 ≤ N_MAX ≤ 2^24 − 1`, and a `BASE` that is a
multiple of 4 (20_memory.md R83). -/
def Config.wf (c : Config) : Bool :=
  decide (2 ≤ c.nMax) && decide (c.nMax ≤ 2 ^ 24 - 1) && decide (c.base % 4 = 0)

/-- `kw.key H` takes 16, 24 or 32 bytes (30_encoding.md R117). -/
def kwKeyWf (h : List Byte) : Bool := h.length == 16 || h.length == 24 || h.length == 32

/-- `kw.data H` takes at most `BUF_BYTES` bytes (30_encoding.md R117). -/
def kwDataWf (c : Config) (h : List Byte) : Bool := decide (h.length ≤ c.bufBytes)

end Sys2Proof
end

