-- ==== Sys2Proof/Decode.lean ====
section
/-! DEFINITION. The decoder of command words (30_encoding.md R113) and the encoder (R111). -/

namespace Sys2Proof

/-- Why a command word is ILLEGAL (30_encoding.md R113). Both reasons have the same effect. -/
inductive IllegalWord where
  /-- `v[31:4] ≠ 0` -/
  | reservedBits
  /-- `v[31:4] = 0` and OP is 0x5 to 0xF -/
  | reservedCode
  deriving DecidableEq, Repr

/-- What a command word means (30_encoding.md R113). -/
inductive Decoded where
  | command (i : Instr)
  | illegal (why : IllegalWord)
  deriving DecidableEq, Repr

/-- The field OP, bits 3:0 (30_encoding.md R110). -/
def opField (v : Word) : BitVec 4 := v.extractLsb' 0 4

/-- The field RSVD, bits 31:4 (30_encoding.md R110). -/
def rsvdField (v : Word) : BitVec 28 := v.extractLsb' 4 28

/-- The command word with the given fields (30_encoding.md R110). -/
def commandWord (op : BitVec 4) (rsvd : BitVec 28) : Word := rsvd ++ op

/-- The decoder, total on every 32-bit word (30_encoding.md R113). -/
def decode (v : Word) : Decoded :=
  if v = 0x00000000 then .command .nop
  else if rsvdField v ≠ 0 then .illegal .reservedBits
  else if opField v = 0x1 then .command .wrap
  else if opField v = 0x2 then .command .unwrap
  else if opField v = 0x3 then .command .wrapPad
  else if opField v = 0x4 then .command .unwrapPad
  else .illegal .reservedCode

/-- The encoder: the OP code of each command, with RSVD zero (30_encoding.md R111). -/
def opCode : Instr → BitVec 4
  | .nop => 0x0
  | .wrap => 0x1
  | .unwrap => 0x2
  | .wrapPad => 0x3
  | .unwrapPad => 0x4

/-- The word of a command (30_encoding.md R111). -/
def encode (i : Instr) : Word := commandWord (opCode i) 0

/-- The decoder on a row of opcode_table.json: one `CMDW` word of 32 bits, the only length there is
(30_encoding.md R110, R115); a number that is no 32-bit word is no command (log 18). -/
def decodeTableWord (nbits w : Nat) : Option Instr :=
  if nbits ≤ 32 ∧ w < 2 ^ 32 then
    match decode (BitVec.ofNat 32 w) with
    | .command i => some i
    | .illegal _ => none
  else none

end Sys2Proof
end

