-- ==== Sys2Proof/Machine/State.lean ====
section
/-! DEFINITION. Everything the spec gives the block as state (10_state.md), as plain data, with its reset
value (R54), and the reasons a step can stop. -/

namespace Sys2Proof.Machine

/-- Why a step stops. -/
inductive Fault where
  /-- Raised by the host's turn when one of its accesses gets a BUS_ERROR and BUS_ERROR_ACTION is
  `fault` (20_memory.md R87). Safe: "a fault is the direction that makes claims unprovable". -/
  | busError
  deriving DecidableEq, Repr

/-- Why an instruction has no meaning. -/
inductive Refusal where
  /-- Raised by an arm of `exec` for a command without a meaning. No arm raises it: every row of the
  opcode table has its meaning. Safe. -/
  | notModelled (mnemonic : String)
  deriving DecidableEq, Repr

/-- The error of a completed command (60_exceptions.md R270). Codes 6 to 15 are never produced, so they
are not representable (log 17). -/
inductive ErrCode where
  | none
  | unsupportedKeySize
  | invalidInputLength
  | integrityCheckFailed
  | lengthFieldInconsistent
  | illegalCommand
  deriving DecidableEq, Repr

/-- The result of a command, `Ok(out)` or `Err(e)` (42_commands.md R224). -/
inductive CmdResult where
  | ok (out : List Byte)
  | err (e : ErrCode)
  deriving DecidableEq, Repr

/-- A byte array that resets to zero (the buffer, the key file and their copies in the snapshot):
strictly rising addresses, no zero byte listed, an unlisted byte reads 0x00 (10_state.md R54; log 12). -/
abbrev Memory := List Host.Cell

/-- The canonical form of a `Memory`. -/
abbrev Memory.wf (m : Memory) : Prop :=
  m.Pairwise (fun x y => x.1 < y.1) ∧ ∀ c ∈ m, c.2 ≠ 0

/-- The register `STATUS`, field by field (10_state.md R36). -/
structure Status where
  busy : Bool
  done : Bool
  err : ErrCode
  deriving DecidableEq, Repr

/-- The chaining engine's working registers: the accumulator `A` and the array `R[1..N_MAX]`, with
`R[i]` at list position `i − 1` (10_state.md R31). -/
structure Work where
  a : Half
  r : List Half
  deriving DecidableEq, Repr

/-- The command snapshot (10_state.md R50). -/
structure Snapshot where
  op : BitVec 4
  rsvd : BitVec 28
  klen : BitVec 8
  kb : Memory
  len : Word
  inp : Memory
  deriving DecidableEq, Repr

/-- The snapshot's reset value, all zero (10_state.md R50). -/
def Snapshot.zero : Snapshot where
  op := 0
  rsvd := 0
  klen := 0
  kb := []
  len := 0
  inp := []

/-- The phase of the engine's sequencer (10_state.md R51). The counters `j` and `i` are fields of the
state; `FINISH(result)` carries the result it completes with (42_commands.md R226; log 10). -/
inductive Phase where
  | idle
  | check
  | wrapStep
  | unwrapStep
  | shortEnc
  | shortDec
  | verify
  | finish (result : CmdResult)
  deriving DecidableEq, Repr

/-- The response of the bus to one access (20_memory.md R85 to R87). -/
inductive BusResponse where
  | okay
  | busError
  deriving DecidableEq, Repr

/-- What one host access answered: a read gives (response, data) and a write a response
(20_memory.md R85, R86). -/
inductive Response where
  | read (r : BusResponse) (data : Word)
  | write (r : BusResponse)
  deriving DecidableEq, Repr

/-- One turn of the schedule: which agent moves next (10_state.md R30; log 7). -/
inductive Turn where
  /-- the engine takes one step of its sequencer -/
  | engine
  /-- the host performs its next access and nothing else happens -/
  | access
  /-- the host performs its next access; if that is a write to `CMD` the engine runs the command from
  CHECK to FINISH in the same step (10_state.md R52; log 8) -/
  | command
  /-- the platform asserts `rst` (70_reset_and_hazards.md R300) -/
  | reset
  deriving DecidableEq, Repr

/-- The machine: the block's state (10_state.md R54's table, in its order), the parameters, and the
MODEL's own fields for the host (log 14), the schedule (log 7) and the host's record (log 11). -/
structure State where
  /-- the parameters of 00_scope.md R8, written by no step -/
  cfg : Config
  /-- CTRL.IE (R34) -/
  ie : Bool
  /-- STATUS (R36) -/
  status : Status
  /-- KEK_LEN.LEN (R37) -/
  kekLen : BitVec 8
  /-- DATA_LEN (R38) -/
  dataLen : Word
  /-- OUT_LEN (R39) -/
  outLen : Word
  /-- KEKB[0..32), the key file (R40) -/
  kekb : Memory
  /-- BUF[0..BUF_BYTES), the data buffer (R41) -/
  buf : Memory
  /-- A and R[1..N_MAX] (R31) -/
  work : Work
  /-- the snapshot (R50) -/
  snap : Snapshot
  /-- the sequencer's phase (R51) -/
  phase : Phase
  /-- the sequencer's round counter (R51) -/
  j : Nat
  /-- the sequencer's index counter (R51) -/
  i : Nat
  /-- the host's remaining program (the model's own field) -/
  host : List HostOp
  /-- the schedule (the model's own field) -/
  turns : List Turn
  /-- what the host's accesses answered, newest first (the model's own field) -/
  responses : List Response
  deriving DecidableEq, Repr

/-- The working registers at zero, `R[1..n]` of them (10_state.md R32, R54). -/
def Work.zero (n : Nat) : Work where
  a := 0
  r := List.replicate n 0

/-- The machine right after reset (10_state.md R54). -/
def State.reset : State where
  cfg := Config.example8
  ie := false
  status := { busy := false, done := false, err := .none }
  kekLen := 0
  dataLen := 0
  outLen := 0
  kekb := []
  buf := []
  work := Work.zero Config.example8.nMax
  snap := Snapshot.zero
  phase := .idle
  j := 0
  i := 0
  host := []
  turns := []
  responses := []

end Sys2Proof.Machine
end

