-- ==== Sys2Proof/Machine/Bytes.lean ====
section
/-! DEFINITION. Byte strings and big-endian conversions (00_scope.md R10 to R13). -/

namespace Sys2Proof.Machine

/-- The natural number a byte string spells, most significant byte first: `Σ S[k] * 256^(len − 1 − k)`
(00_scope.md R11). -/
def beNat (s : List Byte) : Nat := s.foldl (fun n b => 256 * n + b.toNat) 0

/-- `be32` (00_scope.md R11). -/
def be32 (s : List Byte) : Word := BitVec.ofNat 32 (beNat s)

/-- `be64` (00_scope.md R11). -/
def be64 (s : List Byte) : Half := BitVec.ofNat 64 (beNat s)

/-- The `k`-byte big-endian string of a number: the last byte is the lowest eight bits
(00_scope.md R11). -/
def bytesBE : Nat → Nat → List Byte
  | 0, _ => []
  | k + 1, v => bytesBE k (v / 256) ++ [BitVec.ofNat 8 v]

/-- `bytes32` (00_scope.md R11). -/
def bytes32 (v : Word) : List Byte := bytesBE 4 v.toNat

/-- `bytes64` (00_scope.md R11). -/
def bytes64 (v : Half) : List Byte := bytesBE 8 v.toNat

/-- The 16 bytes of a block: its high half first (00_scope.md R12). -/
def bytes128 (b : Block) : List Byte := bytesBE 16 b.toNat

/-- The block spelled by 16 bytes. -/
def be128 (s : List Byte) : Block := BitVec.ofNat 128 (beNat s)

/-- `zeros(k)` (00_scope.md R10). -/
def zeros (k : Nat) : List Byte := List.replicate k 0

/-- `S[a..b)` (00_scope.md R10). -/
def slice (s : List Byte) (a b : Nat) : List Byte := (s.take b).drop a

/-- `MSB64`, the high 8 bytes of a block (00_scope.md R12). -/
def msb64 (b : Block) : Half := b.extractLsb' 64 64

/-- `LSB64`, the low 8 bytes of a block (00_scope.md R12). -/
def lsb64 (b : Block) : Half := b.extractLsb' 0 64

/-- The block `A || R[i]` (00_scope.md R10). -/
def joinHalves (a r : Half) : Block := a ++ r

/-- `X ⊕ t`: the counter is XORed in as a 64-bit big-endian integer (00_scope.md R12). -/
def xorCounter (x : Half) (t : Nat) : Half := x ^^^ BitVec.ofNat 64 t

/-- `ceil8(L) = ⌈L / 8⌉` (00_scope.md R13). -/
def ceil8 (l : Nat) : Nat := (l + 7) / 8

/-- The first `n` 8-byte pieces of a byte string, as registers: piece `i` is `P[8(i−1)..8i)`
(40_chaining_engine.md R142). -/
def halves : Nat → List Byte → List Half
  | 0, _ => []
  | n + 1, p => be64 (p.take 8) :: halves n (p.drop 8)

/-- `R[1] || … || R[n]` as a byte string (40_chaining_engine.md R142). -/
def joinBytes (r : List Half) : List Byte := r.flatMap bytes64

end Sys2Proof.Machine
end

