-- ==== Sys2Proof/Machine/Flags.lean ====
section
/-! DEFINITION. The flags of `STATUS`, the error codes and the interrupt output (10_state.md R34, R36,
R44; 60_exceptions.md R270, R276). -/

namespace Sys2Proof.Machine

/-- The code of an error, bits 7:4 of `STATUS` (60_exceptions.md R270). -/
def ErrCode.code : ErrCode → BitVec 4
  | .none => 0
  | .unsupportedKeySize => 1
  | .invalidInputLength => 2
  | .integrityCheckFailed => 3
  | .lengthFieldInconsistent => 4
  | .illegalCommand => 5

/-- A bit of a word. -/
def bit (b : Bool) : Word := if b then 1 else 0

/-- `STATUS` as the host reads it: BUSY in bit 0, DONE in bit 1, ERR in bits 7:4, the rest zero
(10_state.md R36; 20_memory.md R85). -/
def Status.word (st : Status) : Word :=
  (st.err.code.zeroExtend 32 <<< 4) ||| (bit st.done <<< 1) ||| bit st.busy

/-- The flags on acceptance: BUSY 1, DONE 0, ERR 0 (42_commands.md R220). -/
def Status.accepted : Status := { busy := true, done := false, err := .none }

/-- The flags on completion: BUSY 0, DONE 1, ERR the code (42_commands.md R226). -/
def Status.completed (e : ErrCode) : Status := { busy := false, done := true, err := e }

/-- A write to `STATUS`: bit 1 set clears DONE, and nothing else changes (10_state.md R36). -/
def Status.writeW1C (st : Status) (v : Word) : Status :=
  if v.getLsbD 1 then { st with done := false } else st

/-- The output `irq = CTRL.IE AND STATUS.DONE` (60_exceptions.md R276). -/
def State.irq (s : State) : Bool := s.ie && s.status.done

/-- `irq` where the platform's IRQ_ROUTING lets it reach the host (60_exceptions.md R276; log 6). -/
def State.irqAtHost (s : State) : Bool := s.irq && s.cfg.irqRouted

end Sys2Proof.Machine
end

