-- ==== Sys2Proof/Machine/Memory.lean ====
section
/-! DEFINITION. The named operations over byte arrays: the buffer and the key file (10_state.md R40,
R41; 20_memory.md R80, R85, R86). -/

namespace Sys2Proof.Machine

/-- What a byte nothing has written reads as: 0x00, the reset contents of `BUF` and `KEKB`
(10_state.md R54). -/
def unlistedByte : Byte := 0

/-- One byte of a byte array. -/
def Memory.read : Memory → Nat → Byte
  | [], _ => unlistedByte
  | c :: m, a => if a = c.1 then c.2 else Memory.read m a

/-- A byte placed in front of a list whose addresses are all higher; a byte that an unlisted address
reads as is not listed. -/
def Memory.put (a : Nat) (b : Byte) (m : Memory) : Memory :=
  if b = unlistedByte then m else (a, b) :: m

/-- The byte array with one byte replaced. -/
def Memory.write : Memory → Nat → Byte → Memory
  | [], a, b => Memory.put a b []
  | c :: m, a, b =>
    if a < c.1 then Memory.put a b (c :: m)
    else if a = c.1 then Memory.put a b m
    else c :: Memory.write m a b

/-- Bytes `a` to `a + n − 1`. -/
def Memory.readBytes (m : Memory) (a n : Nat) : List Byte :=
  (List.range n).map fun k => m.read (a + k)

/-- The byte array with a byte string stored from `a` on. -/
def Memory.writeBytes : Memory → Nat → List Byte → Memory
  | m, _, [] => m
  | m, a, b :: bs => Memory.writeBytes (m.write a b) (a + 1) bs

/-- Word `k` of a byte array, the byte of lowest index in bits 31:24 (20_memory.md R80). -/
def Memory.readWord (m : Memory) (k : Nat) : Word := be32 (m.readBytes (4 * k) 4)

/-- Word `k` of a byte array replaced (20_memory.md R86). -/
def Memory.writeWord (m : Memory) (k : Nat) (v : Word) : Memory := m.writeBytes (4 * k) (bytes32 v)

/-- A byte array that holds a byte string from 0 on and zeros after it. -/
def Memory.ofBytes (s : List Byte) : Memory := Memory.writeBytes [] 0 s

end Sys2Proof.Machine
end

