-- ==== Sys2Proof/Machine/Operands.lean ====
section
/-! DEFINITION. The implicit operands of a command, all read from the snapshot (30_encoding.md R112), and
the checks on them (42_commands.md R221 to R223). -/

namespace Sys2Proof.Machine

/-- `E(K, X) = AES_Enc(8*len(K), K, X)` (00_scope.md R15). -/
def encryptBlock (k : List Byte) (x : Block) : Block := Config.aes (8 * k.length) k x

/-- `D(K, X) = AES_Dec(8*len(K), K, X)` (00_scope.md R15). -/
def decryptBlock (k : List Byte) (x : Block) : Block := (Config.aes (8 * k.length) k).symm x

/-- The accepted command word, from its two fields (10_state.md R50). -/
def Snapshot.word (q : Snapshot) : Word := commandWord q.op q.rsvd

/-- The key `K = kb[0..klen)` (42_commands.md R221). -/
def Snapshot.key (q : Snapshot) : List Byte := q.kb.readBytes 0 q.klen.toNat

/-- The input length `L` in bytes (42_commands.md R225). -/
def Snapshot.length (q : Snapshot) : Nat := q.len.toNat

/-- The input `X = in[0..L)` (42_commands.md R224). -/
def Snapshot.input (q : Snapshot) : List Byte := q.inp.readBytes 0 q.length

/-- The key-size check: 16, 24 or 32 bytes (42_commands.md R221). -/
def keySizeOk (klen : BitVec 8) : Bool := klen == 16 || klen == 24 || klen == 32

/-- `nmin = 2 − ALLOW_SINGLE_BLOCK` (42_commands.md R222). -/
def minBlocks (c : Config) : Nat := if c.allowSingleBlock then 1 else 2

/-- The length check of WRAP (42_commands.md R222). -/
def wrapLengthOk (c : Config) (l : Nat) : Bool :=
  decide (l % 8 = 0) && decide (minBlocks c ≤ l / 8) && decide (l / 8 ≤ c.nMax)

/-- The length check of UNWRAP (42_commands.md R222). -/
def unwrapLengthOk (c : Config) (l : Nat) : Bool :=
  decide (l % 8 = 0) && decide (minBlocks c ≤ l / 8 - 1) && decide (l / 8 - 1 ≤ c.nMax)

/-- The length check of WRAP_PAD (42_commands.md R223). -/
def wrapPadLengthOk (c : Config) (l : Nat) : Bool :=
  decide (1 ≤ l) && decide (ceil8 l ≤ c.nMax)

/-- The length check of UNWRAP_PAD (42_commands.md R223). -/
def unwrapPadLengthOk (c : Config) (l : Nat) : Bool :=
  decide (l % 8 = 0) && decide (16 ≤ l) && decide (l / 8 - 1 ≤ c.nMax)

/-- Steps 2 and 3 of `Execute`: the key size, then the length by the command's own check; the first
failing check gives the error (42_commands.md R224). -/
def operandError (lengthOk : Config → Nat → Bool) (c : Config) (q : Snapshot) : Option ErrCode :=
  if !keySizeOk q.klen then some .unsupportedKeySize
  else if !lengthOk c q.length then some .invalidInputLength
  else none

/-- The block count `n` of a command (42_commands.md R222; 41_padding_extension.md R182, R185). NOP has
none. -/
def blockCount : Instr → Nat → Nat
  | .nop, _ => 0
  | .wrap, l => l / 8
  | .unwrap, l => l / 8 - 1
  | .wrapPad, l => ceil8 l
  | .unwrapPad, l => l / 8 - 1

end Sys2Proof.Machine
end

