-- ==== Sys2Proof/Machine/Chaining.lean ====
section
/-! DEFINITION. The register chaining engine, RFC 3394 (40_chaining_engine.md). The cipher is an
argument: `e` stands for `E(K, ·)` and `d` for `D(K, ·)` (00_scope.md R15). -/

namespace Sys2Proof.Machine

/-- The step counter `t = n*j + i` (R140). -/
def stepCounter (n j i : Nat) : Nat := n * j + i

/-- The default initial value (R141). -/
def ivKw : Half := 0xA6A6A6A6A6A6A6A6

/-- The register `R[i]`; the array is indexed from 1 (10_state.md R31). -/
def Work.getR (w : Work) (i : Nat) : Half := w.r.getD (i - 1) 0

/-- The register `R[i]` replaced. -/
def Work.setR (w : Work) (i : Nat) (v : Half) : Work := { w with r := w.r.set (i - 1) v }

/-- WRAP_STEP(j, i): encrypt `A || R[i]`, then XOR the counter into the high half (R143). -/
def wrapStep (e : Block → Block) (n j i : Nat) (w : Work) : Work :=
  let b := e (joinHalves w.a (w.getR i))
  { w.setR i (lsb64 b) with a := xorCounter (msb64 b) (stepCounter n j i) }

/-- UNWRAP_STEP(j, i): XOR the counter into the old `A`, then decrypt (R145). -/
def unwrapStep (d : Block → Block) (n j i : Nat) (w : Work) : Work :=
  let b := d (joinHalves (xorCounter w.a (stepCounter n j i)) (w.getR i))
  { w.setR i (lsb64 b) with a := msb64 b }

/-- The order of the wrap steps: `j` from 0 to 5, and in each round `i` from 1 to `n` (R144). -/
def wrapOrder (n : Nat) : List (Nat × Nat) :=
  (List.range 6).flatMap fun j => (List.range n).map fun k => (j, k + 1)

/-- The order of the unwrap steps: `j` from 5 down to 0, and in each round `i` from `n` down to 1
(R146). -/
def unwrapOrder (n : Nat) : List (Nat × Nat) :=
  (List.range 6).flatMap fun k => (List.range n).map fun l => (5 - k, n - l)

/-- The six rounds of wrap steps (R144). -/
def wrapRounds (e : Block → Block) (n : Nat) (w : Work) : Work :=
  (wrapOrder n).foldl (fun w p => wrapStep e n p.1 p.2 w) w

/-- The six rounds of unwrap steps (R146). -/
def unwrapRounds (d : Block → Block) (n : Nat) (w : Work) : Work :=
  (unwrapOrder n).foldl (fun w p => unwrapStep d n p.1 p.2 w) w

/-- Load for wrap: `R[i] <- P[8(i−1)..8i)` for `i = 1..n`, `A <- IV`; `R[n+1..]` untouched (R142). -/
def loadWrap (n : Nat) (iv : Half) (p : List Byte) (w : Work) : Work :=
  { a := iv, r := halves n p ++ w.r.drop n }

/-- Load for unwrap: `A <- C[0..8)`, `R[i] <- C[8i..8i+8)` for `i = 1..n` (R142). -/
def loadUnwrap (n : Nat) (c : List Byte) (w : Work) : Work :=
  { a := be64 (slice c 0 8), r := halves n (c.drop 8) ++ w.r.drop n }

/-- Unload after wrap: `A || R[1] || … || R[n]` (R142). -/
def unloadWrap (n : Nat) (w : Work) : List Byte := bytes64 w.a ++ joinBytes (w.r.take n)

/-- Unload after unwrap: the plaintext `R[1] || … || R[n]` (R142). -/
def unloadUnwrap (n : Nat) (w : Work) : List Byte := joinBytes (w.r.take n)

/-- The wrap core `W(K, IV, P)`, with `len(P) = 8n` (R144). Its result is `len(P) + 8` bytes long and it
makes one cipher call for each of the `6n` entries of `wrapOrder n` (R148). -/
def wrapCore (e : Block → Block) (iv : Half) (p : List Byte) : List Byte :=
  let n := p.length / 8
  unloadWrap n (wrapRounds e n (loadWrap n iv p (Work.zero n)))

/-- The unwrap core `W⁻¹(K, C)`, with `len(C) = 8(n+1)`: the plaintext and the recovered IV, which it
never compares (R146, R147). It undoes `wrapCore` under the cipher's inverse law and makes one cipher call
for each of the `6n` entries of `unwrapOrder n` (R148). -/
def unwrapCore (d : Block → Block) (c : List Byte) : List Byte × Half :=
  let n := c.length / 8 - 1
  let w := unwrapRounds d n (loadUnwrap n c (Work.zero n))
  (unloadUnwrap n w, w.a)

end Sys2Proof.Machine
end

