-- ==== Sys2Proof/Machine/Padding.lean ====
section
/-! DEFINITION. The padding and length encoder, RFC 5649 (41_padding_extension.md). -/

namespace Sys2Proof.Machine

/-- `AIV_PREFIX` (R180). -/
def aivPrefix : Word := 0xA65959A6

/-- `AIV(MLI) = AIV_PREFIX || bytes32(MLI)` (R181). -/
def aiv (mli : Nat) : Half := aivPrefix ++ BitVec.ofNat 32 mli

/-- The first four bytes of an IV register (R186). -/
def ivPrefix (s : Half) : Word := s.extractLsb' 32 32

/-- The message length indicator, `be32` of the last four bytes of an IV register (R187). -/
def ivMli (s : Half) : Nat := (s.extractLsb' 0 32).toNat

/-- The padded plaintext `Q = P || zeros(8*ceil8(MLI) − MLI)` (R182). -/
def padPlaintext (p : List Byte) : List Byte := p ++ zeros (8 * ceil8 p.length - p.length)

/-- The short path of the padded wrap: exactly one cipher call and no counter XOR (R183, R184). -/
def shortEncrypt (e : Block → Block) (s : Half) (q : List Byte) : List Byte :=
  bytes128 (e (joinHalves s (be64 q)))

/-- The padded wrap core `WP(K, P)` (R184). -/
def padWrapCore (e : Block → Block) (p : List Byte) : List Byte :=
  let s := aiv p.length
  let q := padPlaintext p
  if q.length = 8 then shortEncrypt e s q else wrapCore e s q

/-- The length check `MLI > q − 8 and MLI ≤ q`, on naturals (R187). -/
def mliConsistent (mli q : Nat) : Bool := decide (q - 8 < mli) && decide (mli ≤ q)

/-- The checks of the padded unwrap on the IV register and the candidate, in their order: prefix (R186),
length (R187), and the pad bytes under PAD_ZERO_CHECK (R188). -/
def checkPadded (padZeroCheck : Bool) (s : Half) (q : List Byte) : CmdResult :=
  if ivPrefix s ≠ aivPrefix then .err .integrityCheckFailed
  else if !mliConsistent (ivMli s) q.length then .err .lengthFieldInconsistent
  else if padZeroCheck && (q.drop (ivMli s)).any (· ≠ 0) then .err .integrityCheckFailed
  else .ok (q.take (ivMli s))

/-- The first stage of the padded unwrap: the IV register and the candidate (R185). -/
def padDecode (d : Block → Block) (c : List Byte) : Half × List Byte :=
  if c.length = 16 then
    let b := d (be128 c)
    (msb64 b, bytes64 (lsb64 b))
  else
    let r := unwrapCore d c
    (r.2, r.1)

/-- The padded unwrap core `UP(K, C)` (R189). -/
def padUnwrapCore (padZeroCheck : Bool) (d : Block → Block) (c : List Byte) : CmdResult :=
  let r := padDecode d c
  checkPadded padZeroCheck r.1 r.2

end Sys2Proof.Machine
end

