-- ==== Sys2Proof/Machine/Ops.lean ====
section
/-! DEFINITION. The shared operations on the machine's state: acceptance (42_commands.md R220, R225),
completion (R226), error entry (60_exceptions.md R277), reset (70_reset_and_hazards.md R300). There is
no return from an error (R278). -/

namespace Sys2Proof.Machine

/-- The snapshot taken at acceptance of the word `v` (R225). -/
def State.takeSnapshot (v : Word) (s : State) : Snapshot where
  op := opField v
  rsvd := rsvdField v
  klen := s.kekLen
  kb := s.kekb
  len := s.dataLen
  inp := s.buf

/-- `Accept(v)`, performed on a write to `CMD` while BUSY is 0 (R220). -/
def State.accept (v : Word) (s : State) : State :=
  if v = 0x00000000 then s
  else { s with status := .accepted, outLen := 0, snap := s.takeSnapshot v, phase := .check }

/-- What both branches of FINISH clear: the key file, the working registers, the snapshot and the
sequencer (R226). -/
def State.clearCommand (s : State) : State :=
  { s with kekb := [], work := Work.zero s.cfg.nMax, snap := .zero, phase := .idle, j := 0, i := 0 }

/-- FINISH on its `Ok(out)` branch (R226). -/
def State.succeed (out : List Byte) (s : State) : State :=
  { s.clearCommand with
    buf := Memory.ofBytes out, outLen := BitVec.ofNat 32 out.length, status := .completed .none }

/-- Error entry: FINISH on its `Err(e)` branch. Only the code is saved; no mode, stack or handler is
involved (60_exceptions.md R277). -/
def State.fail (e : ErrCode) (s : State) : State :=
  { s.clearCommand with buf := [], outLen := 0, status := .completed e }

/-- `FINISH(result)`, one atomic step (R226). -/
def State.finish : CmdResult → State → State
  | .ok out, s => s.succeed out
  | .err e, s => s.fail e

/-- Reset of every state element of the block, in one step. `CAPS` keeps its constant value, and the
host's program, the schedule and the host's record are outside the block (R300; log 19). -/
def State.resetBlock (s : State) : State :=
  { s with
    ie := false, status := { busy := false, done := false, err := .none }, kekLen := 0, dataLen := 0
    outLen := 0, kekb := [], buf := [], work := Work.zero s.cfg.nMax, snap := .zero, phase := .idle
    j := 0, i := 0 }

/-- The host notes what an access answered (log 11). -/
def State.record (r : Response) (s : State) : State := { s with responses := r :: s.responses }

/-- A command word written to `CMD` and run to completion in one step (10_state.md R52; log 8): ignored
while BUSY (R43), else accepted (R220), executed from its snapshot by `result` (R224) and finished
(R226). -/
def State.runCommand (v : Word) (result : Config → Snapshot → CmdResult) (s : State) : State :=
  if s.status.busy then s
  else
    let t := s.accept v
    t.finish (result t.cfg t.snap)

/-- An ILLEGAL command word run to completion: it is accepted and completes with ILLEGAL_COMMAND
(30_encoding.md R113; 42_commands.md R224 step 1). -/
def State.runIllegal (v : Word) (s : State) : State :=
  s.runCommand v fun _ _ => .err .illegalCommand

end Sys2Proof.Machine
end

