-- ==== Sys2Proof/Machine/Bus.lean ====
section
/-! DEFINITION. The host register window (10_state.md R33 to R43; 20_memory.md R81 to R87). -/

namespace Sys2Proof.Machine

/-- The offset of a register from BASE (10_state.md R33). -/
def regOffset : HostReg → Nat
  | .ctrl => 0x000
  | .cmd => 0x004
  | .status => 0x008
  | .kekLen => 0x00C
  | .dataLen => 0x010
  | .outLen => 0x014
  | .caps => 0x018
  | .kek w => 0x020 + 4 * w
  | .buf k => 0x100 + 4 * k

/-- The register at an offset: none where the offset is not a multiple of 4 (20_memory.md R81) or is
unmapped (R84). -/
def decodeOffset (c : Config) (off : Nat) : Option HostReg :=
  if off % 4 ≠ 0 then none
  else if off = 0x000 then some .ctrl
  else if off = 0x004 then some .cmd
  else if off = 0x008 then some .status
  else if off = 0x00C then some .kekLen
  else if off = 0x010 then some .dataLen
  else if off = 0x014 then some .outLen
  else if off = 0x018 then some .caps
  else if 0x020 ≤ off ∧ off ≤ 0x03C then some (.kek ((off - 0x020) / 4))
  else if 0x100 ≤ off ∧ off < 0x100 + c.bufBytes then some (.buf ((off - 0x100) / 4))
  else none

/-- The size of the window the block decodes from BASE (20_memory.md R83). -/
def windowBytes (c : Config) : Nat := 0x100 + c.bufBytes

/-- The offset at which a platform bus address falls in the block's window, none outside it
(20_memory.md R83; log 4). -/
def windowOffset (c : Config) (addr : Nat) : Option Nat :=
  if c.base ≤ addr ∧ addr < c.base + windowBytes c then some (addr - c.base) else none

/-- `CAPS`: N_MAX in bits 23:0, ALLOW_SINGLE_BLOCK in bit 24, PAD_ZERO_CHECK in bit 25
(10_state.md R47). -/
def capsWord (c : Config) : Word :=
  (bit c.padZeroCheck <<< 25) ||| (bit c.allowSingleBlock <<< 24) |||
    (BitVec.ofNat 24 c.nMax).zeroExtend 32

/-- The value a read of a register returns (20_memory.md R85). `CMD` and the key file read 0. -/
def State.readReg (s : State) : HostReg → Word
  | .ctrl => bit s.ie
  | .cmd => 0
  | .status => s.status.word
  | .kekLen => s.kekLen.zeroExtend 32
  | .dataLen => s.dataLen
  | .outLen => s.outLen
  | .caps => capsWord s.cfg
  | .kek _ => 0
  | .buf k => s.buf.readWord k

/-- The effect of a write to a register, with the gating while BUSY (20_memory.md R86; 10_state.md
R43). -/
def State.writeReg (s : State) (r : HostReg) (v : Word) : State :=
  match r with
  | .ctrl => { s with ie := v.getLsbD 0 }
  | .cmd => if s.status.busy then s else s.accept v
  | .status => { s with status := s.status.writeW1C v }
  | .kekLen => if s.status.busy then s else { s with kekLen := v.extractLsb' 0 8 }
  | .dataLen => if s.status.busy then s else { s with dataLen := v }
  | .outLen => s
  | .caps => s
  | .kek w => if s.status.busy then s else { s with kekb := s.kekb.writeWord w v }
  | .buf k => if s.status.busy then s else { s with buf := s.buf.writeWord k v }

/-- The register an access reaches: none for a width other than 32 bits (20_memory.md R82), and for a
misaligned or unmapped offset. -/
def busTarget (c : Config) (w : Width) (off : Nat) : Option HostReg :=
  match w with
  | .w32 => decodeOffset c off
  | .w8 => none
  | .w16 => none
  | .w64 => none

/-- `MemRead(off, 4)`: the response and the data; a bus error reads 0 (20_memory.md R85). A read never
changes state. -/
def busRead (s : State) (w : Width) (off : Nat) : BusResponse × Word :=
  match busTarget s.cfg w off with
  | some r => (.okay, s.readReg r)
  | none => (.busError, 0)

/-- `MemWrite(off, 4, v)`: the response and the state after; a bus error changes nothing
(20_memory.md R86, R87). -/
def busWrite (s : State) (w : Width) (off : Nat) (v : Word) : BusResponse × State :=
  match busTarget s.cfg w off with
  | some r => (.okay, s.writeReg r v)
  | none => (.busError, s)

end Sys2Proof.Machine
end

