-- ==== Sys2Proof/Machine/Nop.lean ====
section
/-! DEFINITION. NOP (42_commands.md R235). -/

namespace Sys2Proof.Machine

/-- NOP: `Accept(0x00000000)` returns at once; while BUSY the write is ignored like any other. Either
way nothing changes (42_commands.md R235). -/
def execNop (s : State) : Host.Outcome State Fault Refusal :=
  .next (if s.status.busy then s else s.accept (encode .nop))

end Sys2Proof.Machine
end

