-- ==== Sys2Proof/Machine/Padded.lean ====
section
/-! DEFINITION. WRAP_PAD and UNWRAP_PAD, RFC 5649 (42_commands.md R238, R239). -/

namespace Sys2Proof.Machine

/-- The result of WRAP_PAD: steps 2 and 3 of R224, then `WP(K, X)` (R238). -/
def wrapPadResult (c : Config) (q : Snapshot) : CmdResult :=
  match operandError wrapPadLengthOk c q with
  | some e => .err e
  | none => .ok (padWrapCore (encryptBlock q.key) q.input)

/-- The result of UNWRAP_PAD: steps 2 and 3 of R224, then `UP(K, X)` (R239). -/
def unwrapPadResult (c : Config) (q : Snapshot) : CmdResult :=
  match operandError unwrapPadLengthOk c q with
  | some e => .err e
  | none => padUnwrapCore c.padZeroCheck (decryptBlock q.key) q.input

/-- WRAP_PAD (R238). -/
def execWrapPad (s : State) : Host.Outcome State Fault Refusal :=
  .next (s.runCommand (encode .wrapPad) wrapPadResult)

/-- UNWRAP_PAD (R239). -/
def execUnwrapPad (s : State) : Host.Outcome State Fault Refusal :=
  .next (s.runCommand (encode .unwrapPad) unwrapPadResult)

end Sys2Proof.Machine
end

