-- ==== Sys2Proof/Machine/Unpadded.lean ====
section
/-! DEFINITION. WRAP and UNWRAP, RFC 3394 (42_commands.md R236, R237). -/

namespace Sys2Proof.Machine

/-- The result of WRAP: steps 2 and 3 of R224, then `W(K, IV_KW, X)` (R236). -/
def wrapResult (c : Config) (q : Snapshot) : CmdResult :=
  match operandError wrapLengthOk c q with
  | some e => .err e
  | none => .ok (wrapCore (encryptBlock q.key) ivKw q.input)

/-- The integrity check of UNWRAP: all 8 bytes of the recovered IV against `IV_KW` (R229). -/
def checkIv (s : Half) (p : List Byte) : CmdResult :=
  if s ≠ ivKw then .err .integrityCheckFailed else .ok p

/-- The result of UNWRAP: steps 2 and 3 of R224, then `W⁻¹(K, X)` and its check (R237). -/
def unwrapResult (c : Config) (q : Snapshot) : CmdResult :=
  match operandError unwrapLengthOk c q with
  | some e => .err e
  | none =>
    let r := unwrapCore (decryptBlock q.key) q.input
    checkIv r.2 r.1

/-- WRAP (R236). -/
def execWrap (s : State) : Host.Outcome State Fault Refusal :=
  .next (s.runCommand (encode .wrap) wrapResult)

/-- UNWRAP (R237). -/
def execUnwrap (s : State) : Host.Outcome State Fault Refusal :=
  .next (s.runCommand (encode .unwrap) unwrapResult)

end Sys2Proof.Machine
end

