-- ==== Sys2Proof/Machine/Engine.lean ====
section
/-! DEFINITION. The engine's sequencer, one phase a step (10_state.md R51). It runs an accepted command
from CHECK to FINISH; `exec` is the same run collapsed into one step (R52; log 8). -/

namespace Sys2Proof.Machine

/-- The result of each command. NOP is never executed: as an accepted word it is none of OP 1 to 4
(42_commands.md R224 step 1; log 20). -/
def commandResult : Instr → Config → Snapshot → CmdResult
  | .nop, _, _ => .err .illegalCommand
  | .wrap, c, q => wrapResult c q
  | .unwrap, c, q => unwrapResult c q
  | .wrapPad, c, q => wrapPadResult c q
  | .unwrapPad, c, q => unwrapPadResult c q

/-- Steps 1 to 4 of `Execute`: the result of an accepted command from its snapshot (42_commands.md
R224). -/
def execute (c : Config) (q : Snapshot) : CmdResult :=
  match decode q.word with
  | .illegal _ => .err .illegalCommand
  | .command i => commandResult i c q

/-- The block count `n` of the accepted command. -/
def Snapshot.blocks (q : Snapshot) : Nat :=
  match decode q.word with
  | .command i => blockCount i q.length
  | .illegal _ => 0

/-- The sequencer moves to FINISH with a result. -/
def State.toFinish (r : CmdResult) (s : State) : State := { s with phase := .finish r }

/-- CHECK passed, wrap side: load the registers and go to WRAP_STEP(0, 1) (R51; 40_chaining_engine.md
R142; log 9). -/
def State.startWrap (n : Nat) (iv : Half) (p : List Byte) (s : State) : State :=
  { s with work := loadWrap n iv p s.work, phase := .wrapStep, j := 0, i := 1 }

/-- CHECK passed, unwrap side: load the registers and go to UNWRAP_STEP(5, n) (R51;
40_chaining_engine.md R142; log 9). -/
def State.startUnwrap (n : Nat) (x : List Byte) (s : State) : State :=
  { s with work := loadUnwrap n x s.work, phase := .unwrapStep, j := 5, i := n }

/-- CHECK passed, padded short path: `A <- S; R[1] <- Q`, then SHORT_ENC (41_padding_extension.md R184;
log 9). -/
def State.startShortEnc (p : List Byte) (s : State) : State :=
  { s with work := loadWrap 1 (aiv p.length) (padPlaintext p) s.work, phase := .shortEnc }

/-- CHECK passed, padded short path of the unwrap: SHORT_DEC (41_padding_extension.md R185). -/
def State.startShortDec (s : State) : State := { s with phase := .shortDec }

/-- After CHECK of WRAP. -/
def State.startWrapCommand (s : State) : State :=
  s.startWrap (s.snap.input.length / 8) ivKw s.snap.input

/-- After CHECK of UNWRAP. -/
def State.startUnwrapCommand (s : State) : State :=
  s.startUnwrap (s.snap.input.length / 8 - 1) s.snap.input

/-- After CHECK of WRAP_PAD: the path is chosen by the padded length (41_padding_extension.md R183). -/
def State.startWrapPadCommand (s : State) : State :=
  let p := s.snap.input
  let q := padPlaintext p
  if q.length = 8 then s.startShortEnc p else s.startWrap (q.length / 8) (aiv p.length) q

/-- After CHECK of UNWRAP_PAD: a 16-byte value takes the short path (41_padding_extension.md R185). -/
def State.startUnwrapPadCommand (s : State) : State :=
  if s.snap.input.length = 16 then s.startShortDec
  else s.startUnwrap (s.snap.input.length / 8 - 1) s.snap.input

/-- CHECK of one command: steps 2 and 3 of R224, then the first cipher phase. -/
def State.checkOperands (lengthOk : Config → Nat → Bool) (start : State → State) (s : State) : State :=
  match operandError lengthOk s.cfg s.snap with
  | some e => s.toFinish (.err e)
  | none => start s

/-- CHECK: validation by steps 1 to 3 of R224, then the first cipher phase, or FINISH with an error
(R51). -/
def State.check (s : State) : State :=
  match decode s.snap.word with
  | .illegal _ => s.toFinish (.err .illegalCommand)
  | .command .nop => s.toFinish (.err .illegalCommand)
  | .command .wrap => s.checkOperands wrapLengthOk State.startWrapCommand
  | .command .unwrap => s.checkOperands unwrapLengthOk State.startUnwrapCommand
  | .command .wrapPad => s.checkOperands wrapPadLengthOk State.startWrapPadCommand
  | .command .unwrapPad => s.checkOperands unwrapPadLengthOk State.startUnwrapPadCommand

/-- WRAP_STEP(j, i), then the next (j, i) in ascending order, or FINISH after (5, n) (R51;
40_chaining_engine.md R143, R144). -/
def State.wrapPhase (s : State) : State :=
  let n := s.snap.blocks
  let w := wrapStep (encryptBlock s.snap.key) n s.j s.i s.work
  if s.i < n then { s with work := w, i := s.i + 1 }
  else if s.j < 5 then { s with work := w, j := s.j + 1, i := 1 }
  else { s with work := w, phase := .finish (.ok (unloadWrap n w)) }

/-- UNWRAP_STEP(j, i), then the next (j, i) in descending order, or VERIFY after (0, 1) (R51;
40_chaining_engine.md R145, R146). -/
def State.unwrapPhase (s : State) : State :=
  let n := s.snap.blocks
  let w := unwrapStep (decryptBlock s.snap.key) n s.j s.i s.work
  if 1 < s.i then { s with work := w, i := s.i - 1 }
  else if 0 < s.j then { s with work := w, j := s.j - 1, i := n }
  else { s with work := w, phase := .verify }

/-- SHORT_ENC: the one cipher call of the padded short path (41_padding_extension.md R184). -/
def State.shortEncPhase (s : State) : State :=
  s.toFinish (.ok (bytes128 (encryptBlock s.snap.key (joinHalves s.work.a (s.work.getR 1)))))

/-- SHORT_DEC: the one cipher call of the padded short path; the IV register and the candidate go to
`A` and `R[1]` (41_padding_extension.md R185; log 9). -/
def State.shortDecPhase (s : State) : State :=
  let b := decryptBlock s.snap.key (be128 s.snap.input)
  { s with work := { a := msb64 b, r := lsb64 b :: s.work.r.drop 1 }, phase := .verify }

/-- VERIFY: the integrity and length checks (42_commands.md R229, R231). Only UNWRAP and UNWRAP_PAD come
here (log 20). -/
def State.verifyPhase (s : State) : State :=
  let p := unloadUnwrap s.snap.blocks s.work
  match decode s.snap.word with
  | .command .unwrap => s.toFinish (checkIv s.work.a p)
  | .command .unwrapPad => s.toFinish (checkPadded s.cfg.padZeroCheck s.work.a p)
  | .command .nop => s.toFinish (.err .illegalCommand)
  | .command .wrap => s.toFinish (.err .illegalCommand)
  | .command .wrapPad => s.toFinish (.err .illegalCommand)
  | .illegal _ => s.toFinish (.err .illegalCommand)

/-- One step of the engine's sequencer; when idle it does nothing (R51; 60_exceptions.md R285). -/
def engineStep (s : State) : State :=
  match s.phase with
  | .idle => s
  | .check => s.check
  | .wrapStep => s.wrapPhase
  | .unwrapStep => s.unwrapPhase
  | .shortEnc => s.shortEncPhase
  | .shortDec => s.shortDecPhase
  | .verify => s.verifyPhase
  | .finish r => s.finish r

/-- `k` steps of the engine with no other agent moving. -/
def engineRun : Nat → State → State
  | 0, s => s
  | k + 1, s => engineRun k (engineStep s)

/-- Whether a phase makes a block-cipher call: the four cipher phases make exactly one each, the others
none (R51). -/
def Phase.callsCipher : Phase → Bool
  | .idle => false
  | .check => false
  | .wrapStep => true
  | .unwrapStep => true
  | .shortEnc => true
  | .shortDec => true
  | .verify => false
  | .finish _ => false

/-- The block-cipher calls made in `k` steps of the engine: the cost of `W` and `W⁻¹` is counted in these
(00_scope.md R9; 40_chaining_engine.md R148). -/
def cipherCalls : Nat → State → Nat
  | 0, _ => 0
  | k + 1, s => (if s.phase.callsCipher then 1 else 0) + cipherCalls k (engineStep s)

end Sys2Proof.Machine
end

