-- ==== Sys2Proof/Machine/HostAgent.lean ====
section
/-! DEFINITION. The host's turn: one access of its program (10_state.md R30; 30_encoding.md R116), and
the fetch of the command word it writes to `CMD`. -/

namespace Sys2Proof.Machine

/-- The host receives the answer of an access. A BUS_ERROR stops its program where BUS_ERROR_ACTION is
`fault`, and is only reported where it is `report` (20_memory.md R87; log 5). -/
def State.answer (r : BusResponse) (a : Response) (s : State) : Host.Outcome State Fault Refusal :=
  match r, s.cfg.busErrorAction with
  | .busError, .fault => .fault .busError
  | .busError, .report => .next (s.record a)
  | .okay, _ => .next (s.record a)

/-- The command word `v` decoded and run to completion: a command by `exec`, an ILLEGAL word by its
ILLEGAL_COMMAND completion (30_encoding.md R113). -/
def runWord (v : Word) (s : State) : Host.Outcome State Fault Refusal :=
  match decode v with
  | .command i => exec i s
  | .illegal _ => .next (s.runIllegal v)

/-- The host reads: the access answers and leaves the block as it is. -/
def State.hostRead (w : Width) (off : Nat) (s : State) : Host.Outcome State Fault Refusal :=
  let a := busRead s w off
  s.answer a.1 (.read a.1 a.2)

/-- The host writes and nothing else happens. -/
def State.hostWrite (w : Width) (off : Nat) (v : Word) (s : State) :
    Host.Outcome State Fault Refusal :=
  let a := busWrite s w off v
  a.2.answer a.1 (.write a.1)

/-- One read of a `poll`, which ends once `(data AND mask) = val` (30_encoding.md R116); `rest` is the
program after it. -/
def State.hostPoll (off : Nat) (mask val : Word) (rest : List HostOp) (s : State) :
    Host.Outcome State Fault Refusal :=
  let a := busRead s .w32 off
  if a.2 &&& mask = val then State.answer a.1 (.read a.1 a.2) { s with host := rest }
  else s.answer a.1 (.read a.1 a.2)

/-- The host waits for `irq` (95_test_vectors.md P3; log 14). -/
def State.hostWait (rest : List HostOp) (s : State) : State :=
  if s.irqAtHost then { s with host := rest } else s

/-- Whether a write is one 32-bit write to `CMD` (10_state.md R35). -/
def isCommandWrite (w : Width) (off : Nat) : Bool :=
  match w with
  | .w32 => off == regOffset .cmd
  | .w8 => false
  | .w16 => false
  | .w64 => false

/-- The host's turn in which its access is all that happens; the host with no program left does
nothing. -/
def accessTurn (s : State) : Host.Outcome State Fault Refusal :=
  match s.host with
  | [] => .next s
  | .read w off :: ops => State.hostRead w off { s with host := ops }
  | .write w off v :: ops => State.hostWrite w off v { s with host := ops }
  | .poll off mask val :: ops => s.hostPoll off mask val ops
  | .waitIrq :: ops => .next (s.hostWait ops)

/-- The host's turn in which a write to `CMD` is followed at once by the engine's run from CHECK to
FINISH (10_state.md R52; log 8); any other access is as in `accessTurn`. -/
def commandTurn (s : State) : Host.Outcome State Fault Refusal :=
  match s.host with
  | .write w off v :: ops =>
    if isCommandWrite w off then runWord v (State.record (.write .okay) { s with host := ops })
    else accessTurn s
  | [] => accessTurn s
  | .read _ _ :: _ => accessTurn s
  | .poll _ _ _ :: _ => accessTurn s
  | .waitIrq :: _ => accessTurn s

/-- The step when the schedule has no turn left: a busy engine moves (completion is weakly fair,
42_commands.md R227), else the host does (log 7). -/
def freeTurn (s : State) : Host.Outcome State Fault Refusal :=
  match s.phase with
  | .idle => commandTurn s
  | .check => .next (engineStep s)
  | .wrapStep => .next (engineStep s)
  | .unwrapStep => .next (engineStep s)
  | .shortEnc => .next (engineStep s)
  | .shortDec => .next (engineStep s)
  | .verify => .next (engineStep s)
  | .finish _ => .next (engineStep s)

/-- One turn of the schedule (10_state.md R30; 70_reset_and_hazards.md R300). -/
def takeTurn (t : Turn) (s : State) : Host.Outcome State Fault Refusal :=
  match t with
  | .engine => .next (engineStep s)
  | .access => accessTurn s
  | .command => commandTurn s
  | .reset => .next s.resetBlock

/-- The state in which the command word `v` is what the host writes to `CMD` next, on the next turn
(log 15). -/
def State.withCommandWord (v : Word) (s : State) : State :=
  { s with host := .write .w32 (regOffset .cmd) v :: s.host, turns := .command :: s.turns }

end Sys2Proof.Machine
end

