-- ==== Sys2Proof/Machine/Step.lean ====
section
/-! DEFINITION. One step of the machine: the agent the schedule names moves (10_state.md R30). -/

namespace Sys2Proof.Machine

/-- One step: the next turn of the schedule, or the free turn when none is left (log 7). -/
def step (s : State) : Host.Outcome State Fault Refusal :=
  match s.turns with
  | [] => freeTurn s
  | t :: ts => takeTurn t { s with turns := ts }

/-- The state whose next step writes the command word `w` to `CMD` and runs it (log 15). The word is the
whole 32-bit `CMDW` whatever `nbits` is, since the bits above it are zero. -/
def State.withFetchWord (s : State) (_nbits w : Nat) : State :=
  s.withCommandWord (BitVec.ofNat 32 w)

end Sys2Proof.Machine
end

