-- ==== Sys2Proof/Machine/HostProgram.lean ====
section
/-! DEFINITION. The host's notation and its pseudo-instructions (30_encoding.md R116, R117). They
introduce no state: each expands to a list of accesses. -/

namespace Sys2Proof.Machine

/-- `wr REG, imm32` (R116). -/
def wr (r : HostReg) (v : Word) : HostOp := .write .w32 (regOffset r) v

/-- `rd REG` (R116). -/
def rd (r : HostReg) : HostOp := .read .w32 (regOffset r)

/-- `poll REG, mask, val` (R116). -/
def pollReg (r : HostReg) (mask val : Word) : HostOp := .poll (regOffset r) mask val

/-- `kw.nop` (R117). -/
def kwNop : List HostOp := [wr .cmd 0x00000000]

/-- `kw.wrap` (R117). -/
def kwWrap : List HostOp := [wr .cmd 0x00000001]

/-- `kw.unwrap` (R117). -/
def kwUnwrap : List HostOp := [wr .cmd 0x00000002]

/-- `kw.wrap_pad` (R117). -/
def kwWrapPad : List HostOp := [wr .cmd 0x00000003]

/-- `kw.unwrap_pad` (R117). -/
def kwUnwrapPad : List HostOp := [wr .cmd 0x00000004]

/-- `kw.wait` (R117). -/
def kwWait : List HostOp := [pollReg .status 0x00000001 0x00000000]

/-- `kw.ack` (R117). -/
def kwAck : List HostOp := [wr .status 0x00000002]

/-- `be32(H[4k..4k+4))` (R117). -/
def wordAt (h : List Byte) (k : Nat) : Word := be32 (slice h (4 * k) (4 * k + 4))

/-- `kw.key H` (R117). -/
def kwKey (h : List Byte) : List HostOp :=
  wr .kekLen (BitVec.ofNat 32 h.length) ::
    (List.range (h.length / 4)).map fun w => wr (.kek w) (wordAt h w)

/-- `⌈n / 4⌉`, the number of words that carry `n` bytes (R117). -/
def wordCount (n : Nat) : Nat := (n + 3) / 4

/-- `kw.data H` (R117). -/
def kwData (h : List Byte) : List HostOp :=
  wr .dataLen (BitVec.ofNat 32 h.length) ::
    (List.range (wordCount h.length)).map fun k =>
      wr (.buf k) (wordAt (h ++ zeros (4 * wordCount h.length - h.length)) k)

/-- `kw.read N` (R117). -/
def kwRead (n : Nat) : List HostOp := (List.range (wordCount n)).map fun k => rd (.buf k)

/-- The name `kw.read N` binds: the first `N` bytes of the words read, in order (R117). -/
def kwReadName (n : Nat) (words : List Word) : List Byte := (words.flatMap bytes32).take n

end Sys2Proof.Machine
end

