-- ==== Sys2Proof/Safety.lean ====
section
/-! DEFINITION. The terms claims are stated in: what completing a command is, the invariant of the block,
runs of several steps, and what counts as a safe access of the host. -/

namespace Sys2Proof.Machine

/-- The error of a result; `Ok` has the code NONE (60_exceptions.md R270). -/
def CmdResult.errCode : CmdResult → ErrCode
  | .ok _ => .none
  | .err e => e

/-- The output of a result; a failure has none (42_commands.md R230). -/
def CmdResult.output : CmdResult → List Byte
  | .ok out => out
  | .err _ => []

/-- `t` is `s` after a command completed with `result`: everything FINISH writes (42_commands.md R226),
and everything a command leaves alone. Every byte of `BUF` and of the key file is determined. -/
structure CompletesWith (result : CmdResult) (s t : State) : Prop where
  busy : t.status.busy = false
  done : t.status.done = true
  err : t.status.err = result.errCode
  outLen : t.outLen = BitVec.ofNat 32 result.output.length
  buf : ∀ k, t.buf.read k = result.output.getD k 0
  bufWf : t.buf.wf
  kekb : t.kekb = []
  accumulator : t.work.a = 0
  registers : t.work.r = List.replicate s.cfg.nMax 0
  snap : t.snap = Snapshot.zero
  phase : t.phase = .idle
  counters : t.j = 0 ∧ t.i = 0
  ie : t.ie = s.ie
  kekLen : t.kekLen = s.kekLen
  dataLen : t.dataLen = s.dataLen
  cfg : t.cfg = s.cfg
  host : t.host = s.host
  turns : t.turns = s.turns
  responses : t.responses = s.responses

/-- The key the next command uses, `KEKB[0..KEK_LEN)` (10_state.md R40). -/
def State.hostKey (s : State) : List Byte := s.kekb.readBytes 0 s.kekLen.toNat

/-- The input of the next command, `BUF[0..DATA_LEN)` (10_state.md R38). -/
def State.hostInput (s : State) : List Byte := s.buf.readBytes 0 s.dataLen.toNat

/-- The length check of a command (42_commands.md R222, R223); NOP has none. -/
def lengthOk (c : Config) : Instr → Nat → Bool
  | .nop, _ => true
  | .wrap, l => wrapLengthOk c l
  | .unwrap, l => unwrapLengthOk c l
  | .wrapPad, l => wrapPadLengthOk c l
  | .unwrapPad, l => unwrapPadLengthOk c l

/-- The block is not busy and steps 1 to 3 of R224 accept the command. -/
abbrev State.ready (s : State) (i : Instr) : Prop :=
  s.status.busy = false ∧ keySizeOk s.kekLen = true ∧ lengthOk s.cfg i s.dataLen.toNat = true

/-- The accepted command of a busy state. -/
def State.running (s : State) (i : Instr) : Prop := decode s.snap.word = .command i

/-- The snapshot passed steps 1 to 3 of R224 for the command `i`. -/
def State.checked (s : State) (i : Instr) : Prop :=
  s.running i ∧ keySizeOk s.snap.klen = true ∧ lengthOk s.cfg i s.snap.length = true

/-- What holds in each phase of the sequencer (10_state.md R51): which commands can be there, where the
counters are, and that a result fits the buffer. -/
def State.phaseOk (s : State) : Prop :=
  match s.phase with
  | .idle => True
  | .check => True
  | .wrapStep =>
    (s.checked .wrap ∨ (s.checked .wrapPad ∧ 2 ≤ s.snap.blocks)) ∧
      s.j ≤ 5 ∧ 1 ≤ s.i ∧ s.i ≤ s.snap.blocks
  | .unwrapStep =>
    (s.checked .unwrap ∨ (s.checked .unwrapPad ∧ 2 ≤ s.snap.blocks)) ∧
      s.j ≤ 5 ∧ 1 ≤ s.i ∧ s.i ≤ s.snap.blocks
  | .shortEnc => s.checked .wrapPad ∧ s.snap.blocks = 1
  | .shortDec => s.checked .unwrapPad ∧ s.snap.blocks = 1
  | .verify => s.checked .unwrap ∨ s.checked .unwrapPad
  | .finish (.ok out) => out.length ≤ s.cfg.bufBytes
  | .finish (.err e) => e ≠ .none

/-- The invariant of the block: every step keeps it. -/
structure State.Inv (s : State) : Prop where
  /-- the parameters stay in the bounds of 00_scope.md R8 -/
  cfgWf : s.cfg.wf = true
  /-- BUSY is 1 exactly while the sequencer is not IDLE (10_state.md R36, R51) -/
  busyIff : s.status.busy = true ↔ s.phase ≠ .idle
  /-- while busy, DONE, ERR and OUT_LEN are 0 (42_commands.md R220) -/
  busyClear : s.status.busy = true → s.status.done = false ∧ s.status.err = .none ∧ s.outLen = 0
  /-- when idle, the hidden state is zero (10_state.md R32, R50, R51) -/
  idleClear : s.phase = .idle →
    s.work = Work.zero s.cfg.nMax ∧ s.snap = Snapshot.zero ∧ s.j = 0 ∧ s.i = 0
  /-- a failed command leaves OUT_LEN at 0 (10_state.md R39) -/
  errNoOutput : s.status.err ≠ .none → s.outLen = 0
  /-- the output lies in the buffer (42_commands.md R226) -/
  outFits : s.outLen.toNat ≤ s.cfg.bufBytes
  bufWf : s.buf.wf
  /-- `BUF` has BUF_BYTES bytes (10_state.md R41) -/
  bufBound : ∀ c ∈ s.buf, c.1 < s.cfg.bufBytes
  kekbWf : s.kekb.wf
  /-- the key file has 32 bytes (10_state.md R40) -/
  kekbBound : ∀ c ∈ s.kekb, c.1 < 32
  /-- there are N_MAX registers `R[i]` (10_state.md R31) -/
  regCount : s.work.r.length = s.cfg.nMax
  /-- while busy the snapshot is what the host's registers still hold, and the accepted word is not NOP
  (10_state.md R43, R50; 42_commands.md R220, R225) -/
  snapHeld : s.phase ≠ .idle →
    s.snap.klen = s.kekLen ∧ s.snap.kb = s.kekb ∧ s.snap.len = s.dataLen ∧ s.snap.inp = s.buf ∧
      s.snap.word ≠ 0
  phaseOk : s.phaseOk

/-- `k` steps of the machine, stopping at the first fault or refusal. -/
def runSteps : Nat → State → Host.Outcome State Fault Refusal
  | 0, s => .next s
  | k + 1, s =>
    match step s with
    | .next t => runSteps k t
    | .fault f => .fault f
    | .refused r => .refused r

/-- Whether the host's next access writes a busy-gated register (10_state.md R42, R43). -/
def busyGated : HostReg → Bool
  | .ctrl => false
  | .cmd => true
  | .status => false
  | .kekLen => true
  | .dataLen => true
  | .outLen => false
  | .caps => false
  | .kek _ => true
  | .buf _ => true

/-- The host's obligations at an access: it gets an OKAY response (20_memory.md R87) and its write is not
dropped (70_reset_and_hazards.md R310; 93_implementation_defined.md I15, I17). -/
def State.accessSafe (s : State) : HostOp → Bool
  | .read w off => (busTarget s.cfg w off).isSome
  | .write w off _ =>
    match busTarget s.cfg w off with
    | some r => !(s.status.busy && busyGated r)
    | none => false
  | .poll off _ _ => (busTarget s.cfg .w32 off).isSome
  | .waitIrq => true

/-- The host's next access is safe. -/
def State.safe (s : State) : Bool :=
  match s.host with
  | [] => true
  | op :: _ => s.accessSafe op

end Sys2Proof.Machine
end

