-- ==== Sys2Proof/Certificates/Slice0/Obligations.lean ====
section
/-! DEFINITION. The statements about the model, from the spec's numbered rules. -/

open Sys2Proof Sys2Proof.Machine

/-! ## Encoding -/

/-- Match and mask of each command, and ILLEGAL for every word that matches no row (30_encoding.md
R114). -/
def Obligations.CommandWordsMatchTable : Prop :=
  ∀ v : Word,
    (decode v = .command .nop ↔ v &&& 0xFFFFFFFF = 0x00000000) ∧
    (decode v = .command .wrap ↔ v &&& 0xFFFFFFFF = 0x00000001) ∧
    (decode v = .command .unwrap ↔ v &&& 0xFFFFFFFF = 0x00000002) ∧
    (decode v = .command .wrapPad ↔ v &&& 0xFFFFFFFF = 0x00000003) ∧
    (decode v = .command .unwrapPad ↔ v &&& 0xFFFFFFFF = 0x00000004) ∧
    ((∃ why, decode v = .illegal why) ↔
      v &&& 0xFFFFFFFF ≠ 0x00000000 ∧ v &&& 0xFFFFFFFF ≠ 0x00000001 ∧
      v &&& 0xFFFFFFFF ≠ 0x00000002 ∧ v &&& 0xFFFFFFFF ≠ 0x00000003 ∧
      v &&& 0xFFFFFFFF ≠ 0x00000004)

/-- Decoding the word of a command gives the command back (30_encoding.md R111), also through the
decoder of table rows. -/
def Obligations.EncodedCommandDecodes : Prop :=
  ∀ i : Instr, i.wf = true →
    decode (encode i) = .command i ∧ decodeTableWord 32 (encode i).toNat = some i

/-- The words of 30_encoding.md R111 and of 95_test_vectors.md T22, written out. -/
def Obligations.WrittenWordsDecode : Prop :=
  decode 0b00000000000000000000000000000000 = .command .nop ∧
  decode 0b00000000000000000000000000000001 = .command .wrap ∧
  decode 0b00000000000000000000000000000010 = .command .unwrap ∧
  decode 0b00000000000000000000000000000011 = .command .wrapPad ∧
  decode 0b00000000000000000000000000000100 = .command .unwrapPad ∧
  decode 0x00000005 = .illegal .reservedCode ∧
  decode 0x0000000F = .illegal .reservedCode ∧
  decode 0x00000010 = .illegal .reservedBits ∧
  decode 0x00000011 = .illegal .reservedBits ∧
  decode 0x80000001 = .illegal .reservedBits ∧
  decode 0xFFFFFFFF = .illegal .reservedBits

/-- The register map of 10_state.md R33: every register is decoded at its offset, and what an offset
decodes to exists and has that offset. -/
def Obligations.RegisterMapIsOneToOne : Prop :=
  ∀ c : Config,
    (∀ r : HostReg, r.wf c = true → decodeOffset c (regOffset r) = some r) ∧
    ∀ off r, decodeOffset c off = some r → r.wf c = true ∧ regOffset r = off

/-! ## The step -/

/-- Where the host's next access writes a word to `CMD`, on a `command` turn or on the free turn of an
idle block, the step is `exec` of the decoded command, with the turn and the access consumed and the
OKAY response recorded; an ILLEGAL word completes with its error. The fetch the host of this package
uses is of that shape. The turns and the record are the model's choice (logs 7, 8, 11 and 15). -/
def Obligations.StepRunsDecodedCommand : Prop :=
  (∀ (s : State) (v : Word) (ops : List HostOp), s.host = .write .w32 0x004 v :: ops →
    (∀ i ts, s.turns = .command :: ts → decode v = .command i →
      step s = exec i
        { s with turns := ts, host := ops, responses := .write .okay :: s.responses }) ∧
    (∀ i, s.turns = [] → s.phase = .idle → decode v = .command i →
      step s = exec i { s with host := ops, responses := .write .okay :: s.responses }) ∧
    (∀ why ts, s.turns = .command :: ts → decode v = .illegal why →
      step s = .next (State.runIllegal v
        { s with turns := ts, host := ops, responses := .write .okay :: s.responses })) ∧
    (∀ why, s.turns = [] → s.phase = .idle → decode v = .illegal why →
      step s = .next (State.runIllegal v
        { s with host := ops, responses := .write .okay :: s.responses }))) ∧
  ∀ (s : State) (v : Word) (i : Instr), decode v = .command i →
    step (s.withFetchWord 32 v.toNat) = exec i { s with responses := .write .okay :: s.responses }

/-- An idle block with no access and no turn left does nothing (60_exceptions.md R285). What the machine
does with no turn left is the model's choice (log 7). -/
def Obligations.IdleMachineStays : Prop :=
  ∀ s : State, s.phase = .idle →
    engineStep s = s ∧ (s.turns = [] → s.host = [] → step s = .next s)

/-! ## The commands -/

/-- NOP has no effect at all, busy or not, through `exec` and through the bus; the word 0x00000010 is not
NOP; after a completed command STATUS still reads 0x00000002 (42_commands.md R235). -/
def Obligations.NopChangesNothing : Prop :=
  encode .nop = 0x00000000 ∧ (∃ why, decode 0x00000010 = .illegal why) ∧
  ∀ s : State, exec .nop s = .next s ∧ busWrite s .w32 0x004 0x00000000 = (.okay, s) ∧
    (s.status = { busy := false, done := true, err := .none } →
      busRead (busWrite s .w32 0x004 0x00000000).2 .w32 0x008 = (.okay, 0x00000002))

/-- WRAP (42_commands.md R236): the flags at acceptance, the result, and both errors. ALLOW_SINGLE_BLOCK 1
is the spec's named variant (log 2). -/
def Obligations.WrapMeaning : Prop :=
  encode .wrap = 0x00000001 ∧
  ∀ s : State, s.cfg.wf = true → s.status.busy = false →
    (s.accept (encode .wrap)).status = { busy := true, done := false, err := .none } ∧
    ((s.kekLen = 16 ∨ s.kekLen = 24 ∨ s.kekLen = 32) →
      s.dataLen.toNat % 8 = 0 → (if s.cfg.allowSingleBlock then 1 else 2) ≤ s.dataLen.toNat / 8 →
      s.dataLen.toNat / 8 ≤ s.cfg.nMax →
      ∃ t, exec .wrap s = .next t ∧
        CompletesWith
          (.ok (wrapCore (encryptBlock s.hostKey) 0xA6A6A6A6A6A6A6A6 s.hostInput)) s t ∧
        t.outLen.toNat = s.dataLen.toNat + 8) ∧
    (¬(s.kekLen = 16 ∨ s.kekLen = 24 ∨ s.kekLen = 32) →
      ∃ t, exec .wrap s = .next t ∧ CompletesWith (.err .unsupportedKeySize) s t) ∧
    ((s.kekLen = 16 ∨ s.kekLen = 24 ∨ s.kekLen = 32) →
      (s.dataLen.toNat % 8 ≠ 0 ∨
        s.dataLen.toNat / 8 < (if s.cfg.allowSingleBlock then 1 else 2) ∨
        s.dataLen.toNat / 8 > s.cfg.nMax) →
      ∃ t, exec .wrap s = .next t ∧ CompletesWith (.err .invalidInputLength) s t)

/-- UNWRAP (42_commands.md R237): the result, the full 8-byte integrity check, and the other errors. -/
def Obligations.UnwrapMeaning : Prop :=
  encode .unwrap = 0x00000002 ∧
  ∀ s : State, s.cfg.wf = true → s.status.busy = false →
    (s.accept (encode .unwrap)).status = { busy := true, done := false, err := .none } ∧
    ((s.kekLen = 16 ∨ s.kekLen = 24 ∨ s.kekLen = 32) →
      s.dataLen.toNat % 8 = 0 →
      (if s.cfg.allowSingleBlock then 1 else 2) ≤ s.dataLen.toNat / 8 - 1 →
      s.dataLen.toNat / 8 - 1 ≤ s.cfg.nMax →
      ((unwrapCore (decryptBlock s.hostKey) s.hostInput).2 = 0xA6A6A6A6A6A6A6A6 →
        ∃ t, exec .unwrap s = .next t ∧
          CompletesWith (.ok (unwrapCore (decryptBlock s.hostKey) s.hostInput).1) s t ∧
          t.outLen.toNat = s.dataLen.toNat - 8) ∧
      ((unwrapCore (decryptBlock s.hostKey) s.hostInput).2 ≠ 0xA6A6A6A6A6A6A6A6 →
        ∃ t, exec .unwrap s = .next t ∧ CompletesWith (.err .integrityCheckFailed) s t)) ∧
    (¬(s.kekLen = 16 ∨ s.kekLen = 24 ∨ s.kekLen = 32) →
      ∃ t, exec .unwrap s = .next t ∧ CompletesWith (.err .unsupportedKeySize) s t) ∧
    ((s.kekLen = 16 ∨ s.kekLen = 24 ∨ s.kekLen = 32) →
      (s.dataLen.toNat % 8 ≠ 0 ∨
        s.dataLen.toNat / 8 - 1 < (if s.cfg.allowSingleBlock then 1 else 2) ∨
        s.dataLen.toNat / 8 - 1 > s.cfg.nMax) →
      ∃ t, exec .unwrap s = .next t ∧ CompletesWith (.err .invalidInputLength) s t)

/-- WRAP_PAD (42_commands.md R238): the result, its length on both paths, and both errors. -/
def Obligations.WrapPadMeaning : Prop :=
  encode .wrapPad = 0x00000003 ∧
  ∀ s : State, s.cfg.wf = true → s.status.busy = false →
    (s.accept (encode .wrapPad)).status = { busy := true, done := false, err := .none } ∧
    ((s.kekLen = 16 ∨ s.kekLen = 24 ∨ s.kekLen = 32) →
      1 ≤ s.dataLen.toNat → (s.dataLen.toNat + 7) / 8 ≤ s.cfg.nMax →
      ∃ t, exec .wrapPad s = .next t ∧
        CompletesWith (.ok (padWrapCore (encryptBlock s.hostKey) s.hostInput)) s t ∧
        t.outLen.toNat =
          if s.dataLen.toNat ≤ 8 then 16 else 8 * ((s.dataLen.toNat + 7) / 8) + 8) ∧
    (¬(s.kekLen = 16 ∨ s.kekLen = 24 ∨ s.kekLen = 32) →
      ∃ t, exec .wrapPad s = .next t ∧ CompletesWith (.err .unsupportedKeySize) s t) ∧
    ((s.kekLen = 16 ∨ s.kekLen = 24 ∨ s.kekLen = 32) →
      (s.dataLen.toNat = 0 ∨ (s.dataLen.toNat + 7) / 8 > s.cfg.nMax) →
      ∃ t, exec .wrapPad s = .next t ∧ CompletesWith (.err .invalidInputLength) s t)

/-- UNWRAP_PAD (42_commands.md R239; 41_padding_extension.md R185 to R189): the IV register `S` and the
candidate `Q` on both paths, the three checks in their order, the truncated output, and the other
errors. -/
def Obligations.UnwrapPadMeaning : Prop :=
  encode .unwrapPad = 0x00000004 ∧
  ∀ s : State, s.cfg.wf = true → s.status.busy = false →
    (s.accept (encode .unwrapPad)).status = { busy := true, done := false, err := .none } ∧
    ((s.kekLen = 16 ∨ s.kekLen = 24 ∨ s.kekLen = 32) →
      s.dataLen.toNat % 8 = 0 → 16 ≤ s.dataLen.toNat → s.dataLen.toNat / 8 - 1 ≤ s.cfg.nMax →
      ∀ (iv : Half) (q : List Byte) (mli : Nat),
        (iv, q) = (if s.dataLen.toNat = 16
          then (msb64 (decryptBlock s.hostKey (be128 s.hostInput)),
            bytes64 (lsb64 (decryptBlock s.hostKey (be128 s.hostInput))))
          else ((unwrapCore (decryptBlock s.hostKey) s.hostInput).2,
            (unwrapCore (decryptBlock s.hostKey) s.hostInput).1)) →
        mli = beNat ((bytes64 iv).drop 4) →
        q.length = s.dataLen.toNat - 8 ∧
        ((bytes64 iv).take 4 ≠ [0xA6, 0x59, 0x59, 0xA6] →
          ∃ t, exec .unwrapPad s = .next t ∧ CompletesWith (.err .integrityCheckFailed) s t) ∧
        ((bytes64 iv).take 4 = [0xA6, 0x59, 0x59, 0xA6] → ¬(mli > q.length - 8 ∧ mli ≤ q.length) →
          ∃ t, exec .unwrapPad s = .next t ∧ CompletesWith (.err .lengthFieldInconsistent) s t) ∧
        ((bytes64 iv).take 4 = [0xA6, 0x59, 0x59, 0xA6] → (mli > q.length - 8 ∧ mli ≤ q.length) →
          s.cfg.padZeroCheck = true → (∃ b ∈ q.drop mli, b ≠ 0) →
          ∃ t, exec .unwrapPad s = .next t ∧ CompletesWith (.err .integrityCheckFailed) s t) ∧
        ((bytes64 iv).take 4 = [0xA6, 0x59, 0x59, 0xA6] → (mli > q.length - 8 ∧ mli ≤ q.length) →
          (s.cfg.padZeroCheck = false ∨ ∀ b ∈ q.drop mli, b = 0) →
          ∃ t, exec .unwrapPad s = .next t ∧ CompletesWith (.ok (q.take mli)) s t ∧
            t.outLen.toNat = mli)) ∧
    (¬(s.kekLen = 16 ∨ s.kekLen = 24 ∨ s.kekLen = 32) →
      ∃ t, exec .unwrapPad s = .next t ∧ CompletesWith (.err .unsupportedKeySize) s t) ∧
    ((s.kekLen = 16 ∨ s.kekLen = 24 ∨ s.kekLen = 32) →
      (s.dataLen.toNat % 8 ≠ 0 ∨ s.dataLen.toNat < 16 ∨ s.dataLen.toNat / 8 - 1 > s.cfg.nMax) →
      ∃ t, exec .unwrapPad s = .next t ∧ CompletesWith (.err .invalidInputLength) s t)

/-- An ILLEGAL word is accepted and completes with ILLEGAL_COMMAND, and changes nothing else
(30_encoding.md R113; 42_commands.md R224 step 1). That the step runs it outside `Instr` is log 13. -/
def Obligations.IllegalWordCompletesWithError : Prop :=
  ∀ (s : State) (v : Word) (why : IllegalWord), decode v = .illegal why → s.status.busy = false →
    (s.accept v).status = { busy := true, done := false, err := .none } ∧
    runWord v s = .next (s.runIllegal v) ∧
    CompletesWith (.err .illegalCommand) s (s.runIllegal v)

/-- The order of the checks, over every state and every command: exactly one error is reported, the first
that applies (60_exceptions.md R272). -/
def Obligations.FirstFailingCheckIsReported : Prop :=
  (∀ (s : State) (v : Word) (why : IllegalWord), decode v = .illegal why → s.status.busy = false →
    ∃ t, runWord v s = .next t ∧ t.status.err = .illegalCommand) ∧
  ∀ (s : State) (i : Instr), i ≠ .nop → s.status.busy = false →
    ∃ t, exec i s = .next t ∧
      t.status.err =
        if ¬(s.kekLen = 16 ∨ s.kekLen = 24 ∨ s.kekLen = 32) then .unsupportedKeySize
        else if lengthOk s.cfg i s.dataLen.toNat = false then .invalidInputLength
        else if i = .unwrap ∧
            (unwrapCore (decryptBlock s.hostKey) s.hostInput).2 ≠ 0xA6A6A6A6A6A6A6A6 then
          .integrityCheckFailed
        else if i = .unwrapPad ∧
            ivPrefix (padDecode (decryptBlock s.hostKey) s.hostInput).1 ≠ 0xA65959A6 then
          .integrityCheckFailed
        else if i = .unwrapPad ∧
            mliConsistent (ivMli (padDecode (decryptBlock s.hostKey) s.hostInput).1)
              (padDecode (decryptBlock s.hostKey) s.hostInput).2.length = false then
          .lengthFieldInconsistent
        else if i = .unwrapPad ∧ s.cfg.padZeroCheck = true ∧
            ∃ b ∈ (padDecode (decryptBlock s.hostKey) s.hostInput).2.drop
              (ivMli (padDecode (decryptBlock s.hostKey) s.hostInput).1), b ≠ 0 then
          .integrityCheckFailed
        else .none

/-- `Accept(v)` on a write to `CMD`, with the snapshot it takes (42_commands.md R220, R225). -/
def Obligations.AcceptanceTakesSnapshot : Prop :=
  ∀ (s : State) (v : Word),
    (s.status.busy = true → busWrite s .w32 0x004 v = (.okay, s)) ∧
    (s.status.busy = false → v = 0 → busWrite s .w32 0x004 v = (.okay, s)) ∧
    (s.status.busy = false → v ≠ 0 →
      busWrite s .w32 0x004 v = (.okay, { s with
        status := { busy := true, done := false, err := .none }
        outLen := 0
        snap := { op := v.extractLsb' 0 4, rsvd := v.extractLsb' 4 28, klen := s.kekLen,
                  kb := s.kekb, len := s.dataLen, inp := s.buf }
        phase := .check }))

/-- FINISH on both branches, as the engine's step from phase FINISH; an output always fits the buffer
(42_commands.md R226). -/
def Obligations.FinishWritesResult : Prop :=
  (∀ (s : State) (r : CmdResult), s.phase = .finish r → CompletesWith r s (engineStep s)) ∧
  ∀ (c : Config) (q : Snapshot) (out : List Byte), execute c q = .ok out →
    out.length ≤ 8 * (c.nMax + 1)

/-- A failure leaves nothing of the input, the key or the computation: two blocks that differ only in
`BUF` and in the key file, and fail a command with the same code, are equal afterwards (42_commands.md
R230). -/
def Obligations.FailureRevealsOnlyItsCode : Prop :=
  ∀ (s t t' : State) (i : Instr) (buf kekb : Memory), i ≠ .nop → s.status.busy = false →
    exec i s = .next t → exec i { s with buf := buf, kekb := kekb } = .next t' →
    t.status.err ≠ .none → t'.status.err = t.status.err → t' = t

/-- Bytes of `BUF` at and beyond `DATA_LEN`, and key bytes at and beyond `KEK_LEN`, have no effect on a
command (42_commands.md R236 corner cases; 10_state.md R40). -/
def Obligations.BytesBeyondOperandsIgnored : Prop :=
  ∀ (s : State) (i : Instr) (buf kekb : Memory), i ≠ .nop → s.status.busy = false →
    (∀ a < s.dataLen.toNat, buf.read a = s.buf.read a) →
    (∀ a < s.kekLen.toNat, kekb.read a = s.kekb.read a) →
    exec i { s with buf := buf, kekb := kekb } = exec i s

/-- Completion clears the whole key file: the next command uses the all-zero key of the length in
`KEK_LEN`, and a WRAP under it succeeds (70_reset_and_hazards.md R311). -/
def Obligations.KeyMustBeReloaded : Prop :=
  ∀ (s t : State) (i : Instr), i ≠ .nop → s.status.busy = false → exec i s = .next t →
    (∀ a, t.kekb.read a = 0) ∧
    t.hostKey = List.replicate s.kekLen.toNat 0 ∧
    ∀ (d : Word) (b : Memory), State.ready { t with dataLen := d, buf := b } .wrap →
      ∃ u, exec .wrap { t with dataLen := d, buf := b } = .next u ∧
        CompletesWith (.ok (wrapCore (encryptBlock (List.replicate s.kekLen.toNat 0)) ivKw
          (b.readBytes 0 d.toNat))) { t with dataLen := d, buf := b } u

/-! ## The engine -/

/-- One engine step in WRAP_STEP(j, i): the values of `A` and `R[i]`, every other register as before, and
the next position (40_chaining_engine.md R143; 10_state.md R51). -/
def Obligations.WrapStepValues : Prop :=
  ∀ s : State, s.phase = .wrapStep → 1 ≤ s.i → s.i ≤ s.snap.blocks →
    s.snap.blocks ≤ s.work.r.length →
    ∀ b : Block, b = encryptBlock s.snap.key (s.work.a ++ s.work.r.getD (s.i - 1) 0) →
      (engineStep s).work.a =
        b.extractLsb' 64 64 ^^^ BitVec.ofNat 64 (s.snap.blocks * s.j + s.i) ∧
      (engineStep s).work.r.getD (s.i - 1) 0 = b.extractLsb' 0 64 ∧
      (∀ k, k ≠ s.i - 1 → (engineStep s).work.r[k]? = s.work.r[k]?) ∧
      (s.i < s.snap.blocks → engineStep s =
        { s with work := (engineStep s).work, i := s.i + 1 }) ∧
      (s.i = s.snap.blocks → s.j < 5 → engineStep s =
        { s with work := (engineStep s).work, j := s.j + 1, i := 1 }) ∧
      (s.i = s.snap.blocks → s.j = 5 → engineStep s =
        { s with work := (engineStep s).work,
                 phase := .finish (.ok (bytes64 (engineStep s).work.a ++
                   joinBytes ((engineStep s).work.r.take s.snap.blocks))) })

/-- One engine step in UNWRAP_STEP(j, i): the XOR comes before the cipher call and applies to the old
`A`; every other register as before, and the next position (40_chaining_engine.md R145; 10_state.md
R51). -/
def Obligations.UnwrapStepValues : Prop :=
  ∀ s : State, s.phase = .unwrapStep → 1 ≤ s.i → s.i ≤ s.snap.blocks →
    s.snap.blocks ≤ s.work.r.length →
    ∀ b : Block, b = decryptBlock s.snap.key
        ((s.work.a ^^^ BitVec.ofNat 64 (s.snap.blocks * s.j + s.i)) ++
          s.work.r.getD (s.i - 1) 0) →
      (engineStep s).work.a = b.extractLsb' 64 64 ∧
      (engineStep s).work.r.getD (s.i - 1) 0 = b.extractLsb' 0 64 ∧
      (∀ k, k ≠ s.i - 1 → (engineStep s).work.r[k]? = s.work.r[k]?) ∧
      (1 < s.i → engineStep s = { s with work := (engineStep s).work, i := s.i - 1 }) ∧
      (s.i = 1 → 0 < s.j → engineStep s =
        { s with work := (engineStep s).work, j := s.j - 1, i := s.snap.blocks }) ∧
      (s.i = 1 → s.j = 0 → engineStep s =
        { s with work := (engineStep s).work, phase := .verify })

/-- The three laws of the chaining engine: inverse, length and cost (40_chaining_engine.md R148). The cost is
that of the engine's run: loaded for `W` it reaches FINISH with `W`'s value after `6n` steps, loaded for
`W⁻¹` it reaches VERIFY with `W⁻¹`'s value in its registers after `6n` steps, and in `6n` steps or any more
it makes `6n` cipher calls. When the registers are loaded is the model's choice (log 9). -/
def Obligations.ChainingEngineLaws : Prop :=
  ∀ (k : List Byte) (iv : Half) (n : Nat) (p : List Byte), 1 ≤ n → p.length = 8 * n →
    unwrapCore (decryptBlock k) (wrapCore (encryptBlock k) iv p) = (p, iv) ∧
    (wrapCore (encryptBlock k) iv p).length = p.length + 8 ∧
    ∀ s : State, s.snap.key = k → s.snap.blocks = n →
      (engineRun (6 * n) (s.startWrap n iv p)).phase =
        .finish (.ok (wrapCore (encryptBlock k) iv p)) ∧
      (∀ m ≥ 6 * n, cipherCalls m (s.startWrap n iv p) = 6 * n) ∧
      ∀ c : List Byte, c.length = 8 * (n + 1) →
        (engineRun (6 * n) (s.startUnwrap n c)).phase = .verify ∧
        unwrapCore (decryptBlock k) c =
          (unloadUnwrap n (engineRun (6 * n) (s.startUnwrap n c)).work,
            (engineRun (6 * n) (s.startUnwrap n c)).work.a) ∧
        ∀ m ≥ 6 * n, cipherCalls m (s.startUnwrap n c) = 6 * n

/-- The length law and the round trip of the padding extension, whatever PAD_ZERO_CHECK is
(41_padding_extension.md R190). -/
def Obligations.PaddingLaws : Prop :=
  ∀ (z : Bool) (k p : List Byte), 1 ≤ p.length → p.length < 2 ^ 32 →
    padUnwrapCore z (decryptBlock k) (padWrapCore (encryptBlock k) p) = .ok p ∧
    (padWrapCore (encryptBlock k) p).length =
      if p.length ≤ 8 then 16 else 8 * ((p.length + 7) / 8) + 8

/-- The engine run phase by phase from acceptance ends in the very state the one-step command gives, and
until its last step the host sees BUSY 1, DONE 0, ERR 0, OUT_LEN 0 and the buffer unchanged
(10_state.md R52). -/
def Obligations.PhasedEngineMatchesCommand : Prop :=
  ∀ (s : State) (v : Word), v ≠ 0 → s.status.busy = false →
    ∃ n, 0 < n ∧
      (∀ i, decode v = .command i → exec i s = .next (engineRun n (s.accept v))) ∧
      (∀ why, decode v = .illegal why → s.runIllegal v = engineRun n (s.accept v)) ∧
      ∀ k < n,
        (engineRun k (s.accept v)).status = { busy := true, done := false, err := .none } ∧
        (engineRun k (s.accept v)).outLen = 0 ∧
        (engineRun k (s.accept v)).buf = s.buf ∧
        (engineRun k (s.accept v)).phase ≠ .idle

/-- The number of cipher calls of a command is fixed: `6n`, or 1 on the padded short path
(00_scope.md R9). -/
def Obligations.CipherCallsAreFixed : Prop :=
  ∀ (s : State) (i : Instr), i ≠ .nop → s.ready i →
    ∃ n, (engineRun n (s.accept (encode i))).phase = .idle ∧
      ∀ k ≥ n, cipherCalls k (s.accept (encode i)) =
        if (i = .wrapPad ∧ s.dataLen.toNat ≤ 8) ∨ (i = .unwrapPad ∧ s.dataLen.toNat = 16) then 1
        else 6 * blockCount i s.dataLen.toNat

/-- A command that fails in step 1, 2 or 3 makes no cipher call (42_commands.md R228). -/
def Obligations.EarlyFailureMakesNoCipherCall : Prop :=
  ∀ (s : State) (v : Word) (k : Nat), v ≠ 0 →
    ((∃ why, decode v = .illegal why) ∨
      (∃ i, decode v = .command i ∧
        (keySizeOk s.kekLen = false ∨ lengthOk s.cfg i s.dataLen.toNat = false))) →
    cipherCalls k (s.accept v) = 0

/-- A busy engine with no turn left in the schedule completes within `6 * N_MAX + 3` steps
(42_commands.md R227). That it moves first then is the model's choice (log 7), and the bound counts the
phases of 10_state.md R51, not time. -/
def Obligations.BusyCommandCompletes : Prop :=
  ∀ s : State, s.Inv → s.turns = [] → s.phase ≠ .idle →
    ∃ n t, n ≤ 6 * s.cfg.nMax + 3 ∧ runSteps n s = .next t ∧ t.phase = .idle ∧
      t.status.busy = false ∧ t.status.done = true ∧ t.host = s.host ∧ t.responses = s.responses

/-! ## Round trips through the machine -/

/-- WRAP, then UNWRAP of its output under the same key, restores the plaintext: between them the host
only reloads the key and sets DATA_LEN to OUT_LEN (40_chaining_engine.md R148; 95_test_vectors.md P1,
P2). -/
def Obligations.WrapThenUnwrapRestores : Prop :=
  ∀ s : State, s.cfg.wf = true → s.ready .wrap →
    ∃ t, exec .wrap s = .next t ∧
      ∃ u, exec .unwrap { t with kekb := s.kekb, dataLen := t.outLen } = .next u ∧
        CompletesWith (.ok s.hostInput) { t with kekb := s.kekb, dataLen := t.outLen } u ∧
        u.outLen = s.dataLen

/-- WRAP_PAD, then UNWRAP_PAD of its output under the same key, restores the plaintext
(41_padding_extension.md R190; 95_test_vectors.md P3). -/
def Obligations.WrapPadThenUnwrapPadRestores : Prop :=
  ∀ s : State, s.cfg.wf = true → s.ready .wrapPad →
    ∃ t, exec .wrapPad s = .next t ∧
      ∃ u, exec .unwrapPad { t with kekb := s.kekb, dataLen := t.outLen } = .next u ∧
        CompletesWith (.ok s.hostInput) { t with kekb := s.kekb, dataLen := t.outLen } u ∧
        u.outLen = s.dataLen

/-- A value made by one variant fails the integrity check of the other (42_commands.md R237, R239 corner
cases; 95_test_vectors.md T13). -/
def Obligations.CrossVariantUnwrapFails : Prop :=
  (∀ s : State, s.cfg.wf = true → s.ready .wrapPad → 9 ≤ s.dataLen.toNat →
    ∃ t, exec .wrapPad s = .next t ∧
      ∃ u, exec .unwrap { t with kekb := s.kekb, dataLen := t.outLen } = .next u ∧
        CompletesWith (.err .integrityCheckFailed)
          { t with kekb := s.kekb, dataLen := t.outLen } u) ∧
  ∀ s : State, s.cfg.wf = true → s.ready .wrap → 16 ≤ s.dataLen.toNat →
    ∃ t, exec .wrap s = .next t ∧
      ∃ u, exec .unwrapPad { t with kekb := s.kekb, dataLen := t.outLen } = .next u ∧
        CompletesWith (.err .integrityCheckFailed)
          { t with kekb := s.kekb, dataLen := t.outLen } u

/-! ## The bus -/

/-- `MemRead(off, 4)` (20_memory.md R85). -/
def Obligations.BusReadValues : Prop :=
  ∀ s : State,
    (∀ off, off % 4 ≠ 0 ∨ off = 0x01C ∨ (0x040 ≤ off ∧ off ≤ 0x0FF) ∨
        0x100 + 8 * (s.cfg.nMax + 1) ≤ off →
      busRead s .w32 off = (.busError, 0)) ∧
    busRead s .w32 0x000 = (.okay, if s.ie then 1 else 0) ∧
    busRead s .w32 0x004 = (.okay, 0) ∧
    busRead s .w32 0x008 = (.okay, BitVec.ofNat 32
      (16 * s.status.err.code.toNat + 2 * s.status.done.toNat + s.status.busy.toNat)) ∧
    busRead s .w32 0x00C = (.okay, BitVec.ofNat 32 s.kekLen.toNat) ∧
    busRead s .w32 0x010 = (.okay, s.dataLen) ∧
    busRead s .w32 0x014 = (.okay, s.outLen) ∧
    (s.cfg.nMax < 2 ^ 24 → busRead s .w32 0x018 = (.okay, BitVec.ofNat 32
      (2 ^ 25 * s.cfg.padZeroCheck.toNat + 2 ^ 24 * s.cfg.allowSingleBlock.toNat +
        s.cfg.nMax))) ∧
    (∀ w < 8, busRead s .w32 (0x020 + 4 * w) = (.okay, 0)) ∧
    (∀ k, 4 * k < 8 * (s.cfg.nMax + 1) →
      busRead s .w32 (0x100 + 4 * k) = (.okay, BitVec.ofNat 32
        (16777216 * (s.buf.read (4 * k)).toNat + 65536 * (s.buf.read (4 * k + 1)).toNat +
          256 * (s.buf.read (4 * k + 2)).toNat + (s.buf.read (4 * k + 3)).toNat))) ∧
    (∀ w off ops t, s.host = .read w off :: ops → accessTurn s = .next t →
      t = { s with host := ops, responses := t.responses })

/-- `MemWrite(off, 4, v)` (20_memory.md R86): every byte of the buffer and of the key file, and every other
piece of state, after the write. -/
def Obligations.BusWriteEffects : Prop :=
  ∀ (s : State) (v : Word), s.buf.wf → s.kekb.wf →
    (∀ off, off % 4 ≠ 0 ∨ off = 0x01C ∨ (0x040 ≤ off ∧ off ≤ 0x0FF) ∨
        0x100 + 8 * (s.cfg.nMax + 1) ≤ off →
      busWrite s .w32 off v = (.busError, s)) ∧
    busWrite s .w32 0x000 v = (.okay, { s with ie := v.getLsbD 0 }) ∧
    busWrite s .w32 0x004 v = (.okay, if s.status.busy then s else s.accept v) ∧
    busWrite s .w32 0x008 v = (.okay, { s with
      status := { s.status with done := s.status.done && !v.getLsbD 1 } }) ∧
    busWrite s .w32 0x00C v =
      (.okay, if s.status.busy then s else { s with kekLen := v.extractLsb' 0 8 }) ∧
    busWrite s .w32 0x010 v = (.okay, if s.status.busy then s else { s with dataLen := v }) ∧
    busWrite s .w32 0x014 v = (.okay, s) ∧
    busWrite s .w32 0x018 v = (.okay, s) ∧
    (∀ w < 8, ∃ m : Memory,
      busWrite s .w32 (0x020 + 4 * w) v =
        (.okay, if s.status.busy then s else { s with kekb := m }) ∧
      ∀ a, m.read a = if 4 * w ≤ a ∧ a < 4 * w + 4 then v.extractLsb' (8 * (4 * w + 3 - a)) 8
        else s.kekb.read a) ∧
    (∀ k, 4 * k < 8 * (s.cfg.nMax + 1) → ∃ m : Memory,
      busWrite s .w32 (0x100 + 4 * k) v =
        (.okay, if s.status.busy then s else { s with buf := m }) ∧
      ∀ a, m.read a = if 4 * k ≤ a ∧ a < 4 * k + 4 then v.extractLsb' (8 * (4 * k + 3 - a)) 8
        else s.buf.read a)

/-- While BUSY, writes to the gated registers complete with OKAY and change nothing; writes to CTRL and
STATUS take effect (10_state.md R43). -/
def Obligations.BusyGatesWrites : Prop :=
  ∀ (s : State) (v : Word), s.status.busy = true →
    (∀ off, off = 0x004 ∨ off = 0x00C ∨ off = 0x010 ∨ (∃ w < 8, off = 0x020 + 4 * w) ∨
        (∃ k, 4 * k < 8 * (s.cfg.nMax + 1) ∧ off = 0x100 + 4 * k) →
      busWrite s .w32 off v = (.okay, s)) ∧
    (∀ i, exec i s = .next s) ∧
    busWrite s .w32 0x000 v = (.okay, { s with ie := v.getLsbD 0 }) ∧
    busWrite s .w32 0x008 v = (.okay, { s with
      status := { s.status with done := s.status.done && !v.getLsbD 1 } })

/-- An access that is not 32 bits wide, misaligned or unmapped gets BUS_ERROR, reads 0 and changes no
state of the block; the host goes on or stops as BUS_ERROR_ACTION says, which the spec leaves OPEN (log 5;
20_memory.md R81, R82, R84, R87; 60_exceptions.md R273). -/
def Obligations.BusErrorChangesNothing : Prop :=
  ∀ (s : State) (w : Width) (off : Nat) (v : Word) (ops : List HostOp),
    (w ≠ .w32 ∨ off % 4 ≠ 0 ∨ off = 0x01C ∨ (0x040 ≤ off ∧ off ≤ 0x0FF) ∨
      0x100 + 8 * (s.cfg.nMax + 1) ≤ off) →
    busRead s w off = (.busError, 0) ∧ busWrite s w off v = (.busError, s) ∧
    (s.cfg.busErrorAction = .report →
      (s.host = .read w off :: ops → accessTurn s = .next
        { s with host := ops, responses := .read .busError 0 :: s.responses }) ∧
      (s.host = .write w off v :: ops → accessTurn s = .next
        { s with host := ops, responses := .write .busError :: s.responses })) ∧
    (s.cfg.busErrorAction = .fault →
      s.host = .read w off :: ops ∨ s.host = .write w off v :: ops →
      accessTurn s = .fault .busError)

/-- `CAPS` reports the parameters, ignores writes and never changes (10_state.md R47). -/
def Obligations.CapsIsConstant : Prop :=
  (∀ s : State, s.cfg.wf = true →
    ∃ w, busRead s .w32 0x018 = (.okay, w) ∧
      (w.extractLsb' 0 24).toNat = s.cfg.nMax ∧
      w.getLsbD 24 = s.cfg.allowSingleBlock ∧ w.getLsbD 25 = s.cfg.padZeroCheck ∧
      w.extractLsb' 26 6 = 0) ∧
  (∀ (s : State) (v : Word), busWrite s .w32 0x018 v = (.okay, s)) ∧
  ∀ s t : State, step s = .next t → t.cfg = s.cfg ∧ busRead t .w32 0x018 = busRead s .w32 0x018

/-- A read straight after a write returns the written value, except where the access type says otherwise
(70_reset_and_hazards.md R316; 10_state.md R42): of every mapped register. -/
def Obligations.ReadAfterWrite : Prop :=
  ∀ (s : State) (v : Word), s.status.busy = false → s.buf.wf →
    busRead (busWrite s .w32 0x000 v).2 .w32 0x000 = (.okay, v &&& 0x00000001) ∧
    busRead (busWrite s .w32 0x008 v).2 .w32 0x008 = (.okay, BitVec.ofNat 32
      (16 * s.status.err.code.toNat + 2 * (s.status.done && !v.getLsbD 1).toNat)) ∧
    busRead (busWrite s .w32 0x00C v).2 .w32 0x00C = (.okay, v &&& 0x000000FF) ∧
    busRead (busWrite s .w32 0x010 v).2 .w32 0x010 = (.okay, v) ∧
    (∀ w < 8, busRead (busWrite s .w32 (0x020 + 4 * w) v).2 .w32 (0x020 + 4 * w) = (.okay, 0)) ∧
    (∀ k, 4 * k < 8 * (s.cfg.nMax + 1) →
      busRead (busWrite s .w32 (0x100 + 4 * k) v).2 .w32 (0x100 + 4 * k) = (.okay, v)) ∧
    busRead (busWrite s .w32 0x004 v).2 .w32 0x004 = (.okay, 0) ∧
    busRead (busWrite s .w32 0x014 v).2 .w32 0x014 = busRead s .w32 0x014 ∧
    busRead (busWrite s .w32 0x018 v).2 .w32 0x018 = busRead s .w32 0x018

/-- No access reveals the key file, the snapshot, the working registers or the sequencer: neither data
nor response depends on them (10_state.md R40, R50, R52; 60_exceptions.md R284). -/
def Obligations.HiddenStateIsUnreadable : Prop :=
  ∀ (s : State) (kekb : Memory) (snap : Snapshot) (work : Work) (phase : Phase) (j i : Nat)
    (w : Width) (off : Nat) (v : Word),
    busRead { s with kekb := kekb, snap := snap, work := work, phase := phase, j := j, i := i } w off =
      busRead s w off ∧
    (busWrite { s with kekb := kekb, snap := snap, work := work, phase := phase, j := j, i := i }
      w off v).1 = (busWrite s w off v).1

/-- The block decodes a window of `0x100 + BUF_BYTES` bytes from BASE (20_memory.md R83). Addressing by
offset is the model's choice (log 4). -/
def Obligations.WindowStartsAtBase : Prop :=
  ∀ c : Config, c.wf = true →
    (∀ off, windowOffset c (c.base + off) =
      if off < 0x100 + 8 * (c.nMax + 1) then some off else none) ∧
    (∀ addr < c.base, windowOffset c addr = none) ∧
    ∀ addr off, windowOffset c addr = some off → addr % 4 = off % 4

/-! ## The interrupt, reset and the whole machine -/

/-- The completion interrupt (60_exceptions.md R276). -/
def Obligations.InterruptIsLevelOfDone : Prop :=
  ∀ s : State,
    s.irq = (s.ie && s.status.done) ∧
    (∀ v i, v ≠ 0 → decode v = .command i → s.status.busy = false →
      ∃ t, exec i s = .next t ∧ t.irq = s.ie) ∧
    (∀ v why, decode v = .illegal why → s.status.busy = false → (s.runIllegal v).irq = s.ie) ∧
    (∀ r, s.phase = .finish r → (engineStep s).irq = s.ie) ∧
    (∀ v : Word, v.getLsbD 1 = true → (busWrite s .w32 0x008 v).2.irq = false) ∧
    (∀ v : Word, v ≠ 0 → s.status.busy = false → (busWrite s .w32 0x004 v).2.irq = false) ∧
    s.resetBlock.irq = false ∧
    (∀ v : Word, v.getLsbD 0 = true → s.status.done = true →
      (busWrite s .w32 0x000 v).2.irq = true) ∧
    (busWrite s .w32 0x004 0).2.irq = s.irq

/-- Reset sets every state element of the block in one step, abandons a running command, and performs no
host access (70_reset_and_hazards.md R300). That `rst` is a turn of the schedule, and that the host lies
outside the block, are the model's choice (logs 7 and 19). -/
def Obligations.ResetClearsBlock : Prop :=
  ∀ (s : State) (ts : List Turn), s.turns = .reset :: ts →
    ∃ t, step s = .next t ∧
      t = { s with
        ie := false
        status := { busy := false, done := false, err := .none }
        kekLen := 0
        dataLen := 0
        outLen := 0
        kekb := []
        buf := []
        work := { a := 0, r := List.replicate s.cfg.nMax 0 }
        snap := { op := 0, rsvd := 0, klen := 0, kb := [], len := 0, inp := [] }
        phase := .idle
        j := 0
        i := 0
        turns := ts } ∧
      t.irq = false ∧ (∀ a, t.buf.read a = 0 ∧ t.kekb.read a = 0) ∧
      busRead t .w32 0x018 = busRead s .w32 0x018

/-- Every state element at its reset value (10_state.md R54), in the order of its table. -/
def Obligations.ResetValues : Prop :=
  State.reset.ie = false ∧
  State.reset.status = { busy := false, done := false, err := .none } ∧
  State.reset.kekLen = 0 ∧ State.reset.dataLen = 0 ∧ State.reset.outLen = 0 ∧
  busRead State.reset .w32 0x018 = (.okay, capsWord State.reset.cfg) ∧
  (∀ a, State.reset.kekb.read a = 0) ∧ (∀ a, State.reset.buf.read a = 0) ∧
  State.reset.work.a = 0 ∧ State.reset.work.r = List.replicate State.reset.cfg.nMax 0 ∧
  State.reset.snap = { op := 0, rsvd := 0, klen := 0, kb := [], len := 0, inp := [] } ∧
  State.reset.phase = .idle ∧ State.reset.j = 0 ∧ State.reset.i = 0 ∧
  State.reset.irq = false

/-- The machine right after reset is idle, reads 0 everywhere but CAPS, and waits for a CMD write
(70_reset_and_hazards.md R301; 10_state.md R54). The empty host list at reset is the model's choice
(log 15). -/
def Obligations.ResetStateReadsZero : Prop :=
  State.reset.phase = .idle ∧ State.reset.irq = false ∧ step State.reset = .next State.reset ∧
  busRead State.reset .w32 0x018 = (.okay, capsWord State.reset.cfg) ∧
  ∀ off r w, off ≠ 0x018 → busRead State.reset .w32 off = (r, w) → w = 0

/-- The invariant holds after reset. -/
def Obligations.ResetMeetsInvariant : Prop := State.reset.Inv

/-- Every step keeps the invariant: BUSY is 1 exactly while the sequencer is not IDLE, the hidden state is
zero when idle, the snapshot is what the registers hold while busy, byte arrays stay canonical and in
bounds, there are N_MAX registers, and every phase is one its command can be in. -/
def Obligations.StepKeepsInvariant : Prop :=
  ∀ s t : State, s.Inv → step s = .next t → t.Inv

/-- Which steps set and clear the flags (10_state.md R44), for every state. How turns present the events
is the model's choice (log 7). -/
def Obligations.FlagsChangeOnlyAsTabulated : Prop :=
  ∀ s t : State, step s = .next t →
    (s.status.busy = false → t.status.busy = true →
      ∃ v ops, s.host = .write .w32 0x004 v :: ops ∧ v ≠ 0) ∧
    (s.status.busy = true → t.status.busy = false →
      (∃ r, s.phase = .finish r) ∨ s.turns.head? = some .reset) ∧
    (s.status.done = false → t.status.done = true →
      t.phase = .idle ∧ t.status.busy = false ∧ t.kekb = [] ∧
      ((∃ r, s.phase = .finish r) ∨
        ∃ v ops, s.host = .write .w32 0x004 v :: ops ∧ v ≠ 0 ∧ s.status.busy = false)) ∧
    (s.status.done = true → t.status.done = false →
      (∃ v ops, s.host = .write .w32 0x008 v :: ops ∧ v.getLsbD 1 = true) ∨
      (∃ v ops, s.host = .write .w32 0x004 v :: ops ∧ v ≠ 0 ∧ s.status.busy = false) ∨
      s.turns.head? = some .reset) ∧
    (t.status.err ≠ s.status.err →
      (∃ r, s.phase = .finish r) ∨
      (∃ v ops, s.host = .write .w32 0x004 v :: ops ∧ v ≠ 0 ∧ s.status.busy = false) ∨
      s.turns.head? = some .reset)

/-- While a command runs, only FINISH and reset change what the host can read of it: the buffer, OUT_LEN,
DONE and ERR; the command's inputs cannot change either (10_state.md R52; 20_memory.md R92). The turns are
the model's choice (log 7). -/
def Obligations.OutputChangesOnlyAtFinish : Prop :=
  ∀ s t : State, s.Inv → s.phase ≠ .idle → step s = .next t → s.turns.head? ≠ some .reset →
    (∀ r, s.phase ≠ .finish r) →
    t.status = s.status ∧ t.outLen = s.outLen ∧ t.buf = s.buf ∧ t.kekb = s.kekb ∧
      t.kekLen = s.kekLen ∧ t.dataLen = s.dataLen ∧ t.snap = s.snap ∧ t.phase ≠ .idle

/-- The schedule does not matter: whatever accesses the host makes while a command runs, further command
words among them, in whatever interleaving, the completed command leaves the same state of the block as the engine run alone, but for
the interrupt enable (10_state.md R30, R43; 20_memory.md R92; 42_commands.md R227). The schedule as a list
of turns is the model's choice (log 7). -/
def Obligations.ScheduleDoesNotChangeResult : Prop :=
  ∀ (s u : State) (n : Nat) (us : List Turn),
    (∀ k ≤ n, (engineRun k s).status.busy = true) → (engineRun (n + 1) s).status.busy = false →
    (∀ x ∈ us, x = .engine ∨ x = .access ∨ x = .command) → us.count .engine = n →
    runSteps (us.length + 1) { s with turns := us ++ [.engine] } = .next u →
    u = { engineRun (n + 1) s with
      ie := u.ie, host := u.host, turns := [], responses := u.responses }

/-! ## The host's notation -/

/-- The expansions of the pseudo-instructions (30_encoding.md R117). -/
def Obligations.PseudoInstructionExpansions : Prop :=
  kwNop = [.write .w32 0x004 0x00000000] ∧
  kwWrap = [.write .w32 0x004 0x00000001] ∧
  kwUnwrap = [.write .w32 0x004 0x00000002] ∧
  kwWrapPad = [.write .w32 0x004 0x00000003] ∧
  kwUnwrapPad = [.write .w32 0x004 0x00000004] ∧
  kwWait = [.poll 0x008 0x00000001 0x00000000] ∧
  kwAck = [.write .w32 0x008 0x00000002] ∧
  (∀ h : List Byte, kwKeyWf h = true →
    kwKey h = .write .w32 0x00C (BitVec.ofNat 32 h.length) ::
      (List.range (h.length / 4)).map fun w =>
        .write .w32 (0x020 + 4 * w) (be32 ((h.drop (4 * w)).take 4))) ∧
  (∀ (c : Config) (h : List Byte), kwDataWf c h = true →
    kwData h = .write .w32 0x010 (BitVec.ofNat 32 h.length) ::
      (List.range ((h.length + 3) / 4)).map fun k =>
        .write .w32 (0x100 + 4 * k)
          (be32 (((h ++ List.replicate (4 * ((h.length + 3) / 4) - h.length) 0).drop
            (4 * k)).take 4))) ∧
  ∀ n, kwRead n = (List.range ((n + 3) / 4)).map fun k => .read .w32 (0x100 + 4 * k)

/-- `kw.key H` performed by a block that is not busy leaves the key `H` in the key file and its length in
KEK_LEN, and every other key byte and register as before (30_encoding.md R117). The access turns and the
record are the model's choice (logs 7 and 11). -/
def Obligations.KeyLoadWritesKey : Prop :=
  ∀ (s : State) (h : List Byte) (ops : List HostOp) (ts : List Turn), kwKeyWf h = true →
    s.status.busy = false → s.kekb.wf →
    ∃ t, runSteps (1 + h.length / 4) { s with
        host := kwKey h ++ ops, turns := List.replicate (1 + h.length / 4) .access ++ ts } =
          .next t ∧
      t = { s with
        kekLen := BitVec.ofNat 8 h.length, kekb := t.kekb, host := ops, turns := ts
        responses := List.replicate (1 + h.length / 4) (.write .okay) ++ s.responses } ∧
      (∀ a, t.kekb.read a = if a < h.length then h.getD a 0 else s.kekb.read a) ∧
      t.hostKey = h

/-- `kw.data H` performed by a block that is not busy leaves the input `H` in the buffer and its length
in DATA_LEN (30_encoding.md R117). The access turns and the record are the model's choice (logs 7 and
11). -/
def Obligations.DataLoadWritesInput : Prop :=
  ∀ (s : State) (h : List Byte) (ops : List HostOp) (ts : List Turn), kwDataWf s.cfg h = true →
    s.cfg.wf = true → s.status.busy = false → s.buf.wf →
    ∃ t, runSteps (1 + (h.length + 3) / 4) { s with
        host := kwData h ++ ops
        turns := List.replicate (1 + (h.length + 3) / 4) .access ++ ts } = .next t ∧
      t = { s with
        dataLen := BitVec.ofNat 32 h.length, buf := t.buf, host := ops, turns := ts
        responses := List.replicate (1 + (h.length + 3) / 4) (.write .okay) ++ s.responses } ∧
      (∀ a, t.buf.read a = if a < 4 * ((h.length + 3) / 4) then h.getD a 0 else s.buf.read a) ∧
      t.hostInput = h

/-- `poll` repeats its read until the masked data match, and changes nothing of the block
(30_encoding.md R116). One read a turn, and the 0 of a BUS_ERROR as data to compare, are the model's choice
(log 14); the host goes on after a BUS_ERROR or stops as BUS_ERROR_ACTION says (log 5). -/
def Obligations.PollRepeatsUntilMatch : Prop :=
  ∀ (s : State) (off : Nat) (mask val : Word) (ops : List HostOp),
    s.host = .poll off mask val :: ops →
    (∀ data, busRead s .w32 off = (.okay, data) →
      (data &&& mask = val → accessTurn s = .next
        { s with host := ops, responses := .read .okay data :: s.responses }) ∧
      (data &&& mask ≠ val → accessTurn s = .next
        { s with responses := .read .okay data :: s.responses })) ∧
    ((busRead s .w32 off).1 = .busError →
      (s.cfg.busErrorAction = .fault → accessTurn s = .fault .busError) ∧
      (s.cfg.busErrorAction = .report → val = 0 → accessTurn s = .next
        { s with host := ops, responses := .read .busError 0 :: s.responses }) ∧
      (s.cfg.busErrorAction = .report → val ≠ 0 → accessTurn s = .next
        { s with responses := .read .busError 0 :: s.responses }))

/-- The host that waits for `irq` goes on exactly when `irq` reaches it, makes no access, and changes
nothing of the block (95_test_vectors.md P3; 60_exceptions.md R276). Waiting as an operation, and the one
bit of IRQ_ROUTING, are the model's choice (logs 14 and 6). -/
def Obligations.WaitEndsWithInterrupt : Prop :=
  ∀ (s : State) (ops : List HostOp), s.host = .waitIrq :: ops →
    (s.ie = true → s.status.done = true → s.cfg.irqRouted = true →
      accessTurn s = .next { s with host := ops } ∧
        commandTurn s = .next { s with host := ops }) ∧
    (s.ie = false ∨ s.status.done = false ∨ s.cfg.irqRouted = false →
      accessTurn s = .next s ∧ commandTurn s = .next s)
end

