-- ==== Sys2Proof/Laws/Bytes.lean ====
section
/-! SUPPORT. The conversions between byte strings and words are inverse to each other (00_scope.md R11,
R12), and the lengths of byte strings. -/

namespace Sys2Proof.Machine

theorem beNat_append_byte (s : List Byte) (b : Byte) : beNat (s ++ [b]) = 256 * beNat s + b.toNat := by
  simp [beNat]

@[simp] theorem bytesBE_length (k v : Nat) : (bytesBE k v).length = k := by
  induction k generalizing v with
  | zero => rfl
  | succ k ih => simp [bytesBE, ih]

theorem beNat_lt (s : List Byte) : beNat s < 256 ^ s.length := by
  induction s using List.reverseRecOn with
  | nil => simp [beNat]
  | append_singleton s b ih =>
    have hb := b.isLt
    rw [beNat_append_byte, List.length_append, List.length_singleton, pow_succ]
    omega

/-- The number of a concatenation: the left string is the high part (00_scope.md R10, R11). -/
theorem beNat_append (s t : List Byte) : beNat (s ++ t) = 256 ^ t.length * beNat s + beNat t := by
  induction t using List.reverseRecOn with
  | nil => simp [beNat]
  | append_singleton t b ih =>
    rw [← List.append_assoc, beNat_append_byte, ih, beNat_append_byte, List.length_append,
      List.length_singleton, pow_succ]
    ring

theorem beNat_bytesBE (k v : Nat) : beNat (bytesBE k v) = v % 256 ^ k := by
  induction k generalizing v with
  | zero => simp [bytesBE, beNat, Nat.mod_one]
  | succ k ih =>
    rw [bytesBE, beNat_append_byte, ih, pow_succ, mul_comm (256 ^ k), Nat.mod_mul]
    simp
    omega

theorem bytesBE_beNat (s : List Byte) : bytesBE s.length (beNat s) = s := by
  induction s using List.reverseRecOn with
  | nil => rfl
  | append_singleton s b ih =>
    have hb := b.isLt
    rw [List.length_append, List.length_singleton, bytesBE, beNat_append_byte]
    have h1 : (256 * beNat s + b.toNat) / 256 = beNat s := by omega
    have h2 : BitVec.ofNat 8 (256 * beNat s + b.toNat) = b := by
      apply BitVec.eq_of_toNat_eq
      simp
      omega
    rw [h1, h2, ih]

@[simp] theorem bytes32_length (v : Word) : (bytes32 v).length = 4 := bytesBE_length 4 _

@[simp] theorem bytes64_length (v : Half) : (bytes64 v).length = 8 := bytesBE_length 8 _

@[simp] theorem bytes128_length (b : Block) : (bytes128 b).length = 16 := bytesBE_length 16 _

@[simp] theorem zeros_length (k : Nat) : (zeros k).length = k := List.length_replicate ..

@[simp] theorem be32_bytes32 (v : Word) : be32 (bytes32 v) = v := by
  apply BitVec.eq_of_toNat_eq
  have hv := v.isLt
  simp [be32, bytes32, beNat_bytesBE]
  omega

@[simp] theorem be64_bytes64 (v : Half) : be64 (bytes64 v) = v := by
  apply BitVec.eq_of_toNat_eq
  have hv := v.isLt
  simp [be64, bytes64, beNat_bytesBE]
  omega

@[simp] theorem be128_bytes128 (b : Block) : be128 (bytes128 b) = b := by
  apply BitVec.eq_of_toNat_eq
  have hv := b.isLt
  simp [be128, bytes128, beNat_bytesBE]
  omega

theorem bytes32_be32 {s : List Byte} (h : s.length = 4) : bytes32 (be32 s) = s := by
  have hlt := beNat_lt s
  rw [h] at hlt
  rw [bytes32, be32, BitVec.toNat_ofNat, Nat.mod_eq_of_lt (by omega), ← h, bytesBE_beNat]

theorem bytes64_be64 {s : List Byte} (h : s.length = 8) : bytes64 (be64 s) = s := by
  have hlt := beNat_lt s
  rw [h] at hlt
  rw [bytes64, be64, BitVec.toNat_ofNat, Nat.mod_eq_of_lt (by omega), ← h, bytesBE_beNat]

theorem bytes128_be128 {s : List Byte} (h : s.length = 16) : bytes128 (be128 s) = s := by
  have hlt := beNat_lt s
  rw [h] at hlt
  rw [bytes128, be128, BitVec.toNat_ofNat, Nat.mod_eq_of_lt (by omega), ← h, bytesBE_beNat]

@[simp] theorem msb64_joinHalves (a r : Half) : msb64 (joinHalves a r) = a := by
  apply BitVec.eq_of_getLsbD_eq
  intro i hi
  simp only [msb64, joinHalves, BitVec.getLsbD_extractLsb', BitVec.getLsbD_append]
  rw [if_neg (by omega), Nat.add_sub_cancel_left]
  simp [hi]

@[simp] theorem lsb64_joinHalves (a r : Half) : lsb64 (joinHalves a r) = r := by
  apply BitVec.eq_of_getLsbD_eq
  intro i hi
  simp only [lsb64, joinHalves, BitVec.getLsbD_extractLsb', BitVec.getLsbD_append]
  simp [hi]

@[simp] theorem joinHalves_msb64_lsb64 (b : Block) : joinHalves (msb64 b) (lsb64 b) = b := by
  apply BitVec.eq_of_getLsbD_eq
  intro i hi
  simp only [msb64, lsb64, joinHalves, BitVec.getLsbD_extractLsb', BitVec.getLsbD_append]
  split
  · simp [*]
  · rw [decide_eq_true (by omega), Bool.true_and, Nat.add_sub_of_le (by omega)]

@[simp] theorem xorCounter_xorCounter (x : Half) (t : Nat) : xorCounter (xorCounter x t) t = x := by
  simp [xorCounter]

@[simp] theorem halves_length (n : Nat) (p : List Byte) : (halves n p).length = n := by
  induction n generalizing p with
  | zero => rfl
  | succ n ih => simp [halves, ih]

@[simp] theorem joinBytes_length (r : List Half) : (joinBytes r).length = 8 * r.length := by
  induction r with
  | nil => rfl
  | cons x r ih =>
    rw [joinBytes, List.flatMap_cons, List.length_append, ← joinBytes, ih]
    simp
    omega

theorem joinBytes_cons (x : Half) (r : List Half) : joinBytes (x :: r) = bytes64 x ++ joinBytes r := rfl

theorem halves_joinBytes (r : List Half) : halves r.length (joinBytes r) = r := by
  induction r with
  | nil => rfl
  | cons x r ih =>
    have h8 := bytes64_length x
    rw [List.length_cons, halves, joinBytes_cons, List.take_append_of_le_length (by omega),
      List.drop_append_of_le_length (by omega), List.take_of_length_le (by omega),
      List.drop_eq_nil_of_le (by omega), List.nil_append, be64_bytes64, ih]

theorem joinBytes_halves {n : Nat} {p : List Byte} (h : p.length = 8 * n) :
    joinBytes (halves n p) = p := by
  induction n generalizing p with
  | zero => simpa [halves, joinBytes] using (List.length_eq_zero_iff.mp h).symm
  | succ n ih =>
    rw [halves, joinBytes_cons, bytes64_be64 (by simp; omega), ih (by simp; omega),
      List.take_append_drop]

/-- Piece `i` of a byte string, `i` from 1, is `P[8(i−1)..8i)` (40_chaining_engine.md R142). -/
theorem halves_getD (n : Nat) (p : List Byte) (k : Nat) (h : k < n) :
    (halves n p).getD k 0 = be64 (slice p (8 * k) (8 * k + 8)) := by
  induction n generalizing p k with
  | zero => omega
  | succ n ih =>
    cases k with
    | zero => simp [halves, slice]
    | succ k =>
      rw [halves, List.getD_cons_succ, ih _ _ (by omega), slice, slice, List.drop_take, List.drop_take,
        List.drop_drop]
      congr 2
      · omega
      · congr 1
        omega

end Sys2Proof.Machine
end

