-- ==== Sys2Proof/Laws/Chaining.lean ====
section
/-! SUPPORT. The laws of the chaining engine: each unwrap step undoes the wrap step of the same (j, i),
the two orders are reverse to each other, and the cores are inverse (40_chaining_engine.md R145,
R148). -/

namespace Sys2Proof.Machine

@[simp] theorem Work.setR_a (w : Work) (i : Nat) (v : Half) : (w.setR i v).a = w.a := rfl

@[simp] theorem Work.setR_r (w : Work) (i : Nat) (v : Half) : (w.setR i v).r = w.r.set (i - 1) v := rfl

@[simp] theorem wrapStep_r_length (e : Block → Block) (n j i : Nat) (w : Work) :
    (wrapStep e n j i w).r.length = w.r.length := by simp [wrapStep]

@[simp] theorem unwrapStep_r_length (d : Block → Block) (n j i : Nat) (w : Work) :
    (unwrapStep d n j i w).r.length = w.r.length := by simp [unwrapStep]

/-- UNWRAP_STEP(j, i) undoes WRAP_STEP(j, i) under the inverse law of the cipher (R145). -/
theorem unwrapStep_wrapStep {e d : Block → Block} (hed : ∀ x, d (e x) = x) {n j i : Nat} {w : Work}
    (hi : i - 1 < w.r.length) : unwrapStep d n j i (wrapStep e n j i w) = w := by
  obtain ⟨a, r⟩ := w
  simp only [unwrapStep, wrapStep, Work.getR, Work.setR, xorCounter_xorCounter,
    List.getD_eq_getElem?_getD] at *
  rw [List.getElem?_set_self hi, Option.getD_some, joinHalves_msb64_lsb64, hed]
  simp [List.getElem?_eq_getElem hi]

/-- A wrap step leaves the registers outside `R[1..n]` alone. -/
theorem wrapStep_append (e : Block → Block) {n j i : Nat} (a : Half) {p : List Half} (q : List Half)
    (hi : i - 1 < p.length) :
    wrapStep e n j i ⟨a, p ++ q⟩ =
      ⟨(wrapStep e n j i ⟨a, p⟩).a, (wrapStep e n j i ⟨a, p⟩).r ++ q⟩ := by
  simp [wrapStep, Work.getR, Work.setR, hi, List.getElem?_append_left hi, List.set_append_left _ _ hi]

/-- An unwrap step leaves the registers outside `R[1..n]` alone. -/
theorem unwrapStep_append (d : Block → Block) {n j i : Nat} (a : Half) {p : List Half} (q : List Half)
    (hi : i - 1 < p.length) :
    unwrapStep d n j i ⟨a, p ++ q⟩ =
      ⟨(unwrapStep d n j i ⟨a, p⟩).a, (unwrapStep d n j i ⟨a, p⟩).r ++ q⟩ := by
  simp [unwrapStep, Work.getR, Work.setR, hi, List.getElem?_append_left hi,
    List.set_append_left _ _ hi]

theorem mem_wrapOrder {n : Nat} {p : Nat × Nat} (h : p ∈ wrapOrder n) :
    p.1 ≤ 5 ∧ 1 ≤ p.2 ∧ p.2 ≤ n := by
  simp only [wrapOrder, List.mem_flatMap, List.mem_map, List.mem_range] at h
  obtain ⟨j, hj, k, hk, rfl⟩ := h
  simp only
  omega

theorem unwrapOrder_eq_reverse (n : Nat) : unwrapOrder n = (wrapOrder n).reverse := by
  have hrow : ∀ j : Nat, (List.range n).map (fun l => (j, n - l)) =
      ((List.range n).map fun k => (j, k + 1)).reverse := by
    intro j
    refine List.ext_getElem (by simp) fun k h1 h2 => ?_
    have hk : k < n := by simpa using h1
    simp only [List.getElem_reverse, List.getElem_map, List.getElem_range, List.length_map,
      List.length_range, Prod.mk.injEq, true_and]
    omega
  have h6 : List.range 6 = [0, 1, 2, 3, 4, 5] := rfl
  simp [unwrapOrder, wrapOrder, h6, hrow]

/-- Each core makes `6n` cipher calls, one a step (R148). -/
@[simp] theorem wrapOrder_length (n : Nat) : (wrapOrder n).length = 6 * n := by
  simp [wrapOrder, List.length_flatMap]
  omega

@[simp] theorem unwrapOrder_length (n : Nat) : (unwrapOrder n).length = 6 * n := by
  simp [unwrapOrder_eq_reverse]

theorem foldl_wrapStep_r_length (e : Block → Block) (n : Nat) (l : List (Nat × Nat)) (w : Work) :
    (l.foldl (fun w p => wrapStep e n p.1 p.2 w) w).r.length = w.r.length := by
  induction l generalizing w with
  | nil => rfl
  | cons p l ih => simp [ih]

theorem foldl_unwrapStep_r_length (d : Block → Block) (n : Nat) (l : List (Nat × Nat)) (w : Work) :
    (l.foldl (fun w p => unwrapStep d n p.1 p.2 w) w).r.length = w.r.length := by
  induction l generalizing w with
  | nil => rfl
  | cons p l ih => simp [ih]

@[simp] theorem wrapRounds_r_length (e : Block → Block) (n : Nat) (w : Work) :
    (wrapRounds e n w).r.length = w.r.length := foldl_wrapStep_r_length ..

@[simp] theorem unwrapRounds_r_length (d : Block → Block) (n : Nat) (w : Work) :
    (unwrapRounds d n w).r.length = w.r.length := foldl_unwrapStep_r_length ..

/-- Unwrap steps in reverse order undo wrap steps. -/
theorem foldl_unwrapStep_foldl_wrapStep {e d : Block → Block} (hed : ∀ x, d (e x) = x) (n : Nat)
    {l : List (Nat × Nat)} {w : Work} (hl : ∀ p ∈ l, p.2 - 1 < w.r.length) :
    l.reverse.foldl (fun w p => unwrapStep d n p.1 p.2 w)
      (l.foldl (fun w p => wrapStep e n p.1 p.2 w) w) = w := by
  induction l generalizing w with
  | nil => rfl
  | cons p l ih =>
    rw [List.foldl_cons, List.reverse_cons, List.foldl_append,
      ih fun x hx => by simpa using hl x (List.mem_cons_of_mem _ hx)]
    exact unwrapStep_wrapStep hed (hl p List.mem_cons_self)

/-- The six rounds of unwrap steps undo the six rounds of wrap steps. -/
theorem unwrapRounds_wrapRounds {e d : Block → Block} (hed : ∀ x, d (e x) = x) {n : Nat} {w : Work}
    (hn : n ≤ w.r.length) : unwrapRounds d n (wrapRounds e n w) = w := by
  rw [unwrapRounds, wrapRounds, unwrapOrder_eq_reverse]
  refine foldl_unwrapStep_foldl_wrapStep hed n fun p hp => ?_
  have := mem_wrapOrder hp
  omega

theorem Work.zero_r_drop (n : Nat) : (Work.zero n).r.drop n = [] := by simp [Work.zero]

theorem unloadWrap_length {n : Nat} {w : Work} (h : n ≤ w.r.length) :
    (unloadWrap n w).length = 8 * (n + 1) := by
  simp [unloadWrap, h]
  omega

theorem unloadUnwrap_length {n : Nat} {w : Work} (h : n ≤ w.r.length) :
    (unloadUnwrap n w).length = 8 * n := by
  simp [unloadUnwrap, h]

/-- The length law of `W`: 8 bytes more than the plaintext (R148). -/
theorem wrapCore_length (e : Block → Block) (iv : Half) {n : Nat} {p : List Byte}
    (h : p.length = 8 * n) : (wrapCore e iv p).length = 8 * (n + 1) := by
  have hn : p.length / 8 = n := by omega
  rw [wrapCore, hn]
  exact unloadWrap_length (by simp [loadWrap])

/-- The plaintext `W⁻¹` returns has 8 bytes less than the wrapped value. -/
theorem unwrapCore_length (d : Block → Block) (c : List Byte) :
    (unwrapCore d c).1.length = 8 * (c.length / 8 - 1) := by
  rw [unwrapCore]
  exact unloadUnwrap_length (by simp [loadUnwrap])

/-- Loading what a wrap unloaded restores the registers (R142). -/
theorem loadUnwrap_unloadWrap (n : Nat) {w : Work} (hn : w.r.length = n) :
    loadUnwrap n (unloadWrap n w) (Work.zero n) = w := by
  have h8 := bytes64_length w.a
  have htake : (bytes64 w.a ++ joinBytes w.r).take 8 = bytes64 w.a := by
    rw [List.take_append_of_le_length (by omega), List.take_of_length_le (by omega)]
  have hdrop : (bytes64 w.a ++ joinBytes w.r).drop 8 = joinBytes w.r := by
    rw [List.drop_append_of_le_length (by omega), List.drop_eq_nil_of_le (by omega), List.nil_append]
  rw [loadUnwrap, unloadWrap, Work.zero_r_drop, List.append_nil, List.take_of_length_le (by omega),
    hdrop, slice, htake, List.drop_zero, be64_bytes64, ← hn, halves_joinBytes]

/-- The inverse law: `W⁻¹(K, W(K, IV, P)) = (P, IV)` (R148). -/
theorem unwrapCore_wrapCore {e d : Block → Block} (hed : ∀ x, d (e x) = x) (iv : Half) {n : Nat}
    {p : List Byte} (h : p.length = 8 * n) : unwrapCore d (wrapCore e iv p) = (p, iv) := by
  have hn : p.length / 8 = n := by omega
  have hc : (wrapCore e iv p).length / 8 - 1 = n := by
    rw [wrapCore_length e iv h]
    omega
  have hload : (loadWrap n iv p (Work.zero n)).r.length = n := by simp [loadWrap, Work.zero]
  rw [unwrapCore, hc, wrapCore, hn, loadUnwrap_unloadWrap n (by rw [wrapRounds_r_length, hload]),
    unwrapRounds_wrapRounds hed hload.ge]
  rw [unloadUnwrap, loadWrap, Work.zero_r_drop, List.append_nil,
    List.take_of_length_le (halves_length n p).le, joinBytes_halves h]

end Sys2Proof.Machine
end

