-- ==== Sys2Proof/Laws/Decode.lean ====
section
/-! SUPPORT. The decoder against the fields of the command word (30_encoding.md R110, R113). -/

namespace Sys2Proof.Machine

/-- The two fields make up the word. -/
@[simp] theorem commandWord_fields (v : Word) : commandWord (opField v) (rsvdField v) = v := by
  apply BitVec.eq_of_getLsbD_eq
  intro i hi
  simp only [commandWord, opField, rsvdField, BitVec.getLsbD_append, BitVec.getLsbD_extractLsb']
  split
  · simp [*]
  · rw [decide_eq_true (by omega), Bool.true_and, Nat.add_sub_of_le (by omega)]

/-- A command's word decodes to it. -/
@[simp] theorem decode_encode (i : Instr) : decode (encode i) = .command i := by
  cases i <;> decide

/-- Only the command's own word decodes to it. -/
theorem eq_encode_of_decode {v : Word} {i : Instr} (h : decode v = .command i) : v = encode i := by
  unfold decode at h
  split at h
  · cases h
    assumption
  · split at h
    · cases h
    · rename_i hr
      have hr : rsvdField v = 0 := not_not.mp hr
      have hv := commandWord_fields v
      rw [hr] at hv
      repeat' split at h
      all_goals first
        | (cases h; done)
        | (cases h; rename_i ho; rw [← hv, ho]; rfl)

/-- The word 0 is the only NOP. -/
theorem decode_nop_iff (v : Word) : decode v = .command .nop ↔ v = 0 :=
  ⟨fun h => eq_encode_of_decode h, fun h => by rw [h]; rfl⟩

end Sys2Proof.Machine
end

