-- ==== Sys2Proof/Laws/Memory.lean ====
section
/-! SUPPORT. The laws of byte arrays: reads after writes, and every operation keeps the canonical form. -/

namespace Sys2Proof.Machine

theorem Memory.wf_nil : Memory.wf [] := ⟨List.Pairwise.nil, by simp⟩

theorem Memory.wf_tail {c : Host.Cell} {m : Memory} (h : Memory.wf (c :: m)) : Memory.wf m :=
  ⟨(List.pairwise_cons.mp h.1).2, fun x hx => h.2 x (List.mem_cons_of_mem _ hx)⟩

theorem Memory.read_of_lower {m : Memory} {a : Nat} (h : ∀ c ∈ m, a < c.1) :
    m.read a = unlistedByte := by
  induction m with
  | nil => rfl
  | cons c m ih =>
    have hc := h c List.mem_cons_self
    rw [Memory.read, if_neg (by omega), ih fun x hx => h x (List.mem_cons_of_mem _ hx)]

/-- A byte outside the listed addresses reads as an unlisted one. -/
theorem Memory.read_of_not_listed {m : Memory} {a : Nat} (h : ∀ c ∈ m, c.1 ≠ a) :
    m.read a = unlistedByte := by
  induction m with
  | nil => rfl
  | cons c m ih =>
    have hc := h c List.mem_cons_self
    rw [Memory.read, if_neg (by omega), ih fun x hx => h x (List.mem_cons_of_mem _ hx)]

theorem Memory.put_wf {a : Nat} {b : Byte} {m : Memory} (h : m.wf) (hl : ∀ c ∈ m, a < c.1) :
    (Memory.put a b m).wf := by
  unfold Memory.put
  split
  · exact h
  · exact ⟨List.pairwise_cons.mpr ⟨hl, h.1⟩, by
      rintro c hc
      rcases List.mem_cons.mp hc with rfl | hc
      · assumption
      · exact h.2 c hc⟩

theorem Memory.read_put {a : Nat} {b : Byte} {m : Memory} (hl : ∀ c ∈ m, a < c.1) (x : Nat) :
    (Memory.put a b m).read x = if x = a then b else m.read x := by
  unfold Memory.put
  split
  · rename_i hb
    split
    · rename_i hx
      rw [hx, hb, Memory.read_of_lower hl]
    · rfl
  · rfl

theorem Memory.mem_put {a : Nat} {b : Byte} {m : Memory} {c : Host.Cell} (h : c ∈ Memory.put a b m) :
    c.1 = a ∨ c ∈ m := by
  unfold Memory.put at h
  split at h
  · exact .inr h
  · rcases List.mem_cons.mp h with rfl | h
    · exact .inl rfl
    · exact .inr h

theorem Memory.mem_write {m : Memory} {a : Nat} {b : Byte} {c : Host.Cell} (h : c ∈ m.write a b) :
    c.1 = a ∨ c ∈ m := by
  induction m with
  | nil => exact Memory.mem_put h
  | cons d m ih =>
    unfold Memory.write at h
    split at h
    · exact Memory.mem_put h
    · split at h
      · rcases Memory.mem_put h with h | h
        · exact .inl h
        · exact .inr (List.mem_cons_of_mem _ h)
      · rcases List.mem_cons.mp h with rfl | h
        · exact .inr List.mem_cons_self
        · exact (ih h).imp id (List.mem_cons_of_mem _)

theorem Memory.lower_of_wf {d : Host.Cell} {m : Memory} (h : Memory.wf (d :: m)) :
    ∀ c ∈ m, d.1 < c.1 := (List.pairwise_cons.mp h.1).1

/-- A write keeps the canonical form. -/
theorem Memory.write_wf {m : Memory} (h : m.wf) (a : Nat) (b : Byte) : (m.write a b).wf := by
  induction m with
  | nil => exact Memory.put_wf h (by simp)
  | cons d m ih =>
    have hl := Memory.lower_of_wf h
    unfold Memory.write
    split
    · refine Memory.put_wf h fun c hc => ?_
      rcases List.mem_cons.mp hc with rfl | hc
      · assumption
      · exact lt_trans ‹_› (hl c hc)
    · split
      · subst a
        exact Memory.put_wf (Memory.wf_tail h) hl
      · refine ⟨List.pairwise_cons.mpr ⟨fun c hc => ?_, (ih (Memory.wf_tail h)).1⟩, fun c hc => ?_⟩
        · rcases Memory.mem_write hc with hc | hc
          · omega
          · exact hl c hc
        · rcases List.mem_cons.mp hc with rfl | hc
          · exact h.2 _ List.mem_cons_self
          · exact (ih (Memory.wf_tail h)).2 c hc

/-- A read after a write gives the value written, and every other byte is as before. -/
theorem Memory.read_write {m : Memory} (h : m.wf) (a : Nat) (b : Byte) (x : Nat) :
    (m.write a b).read x = if x = a then b else m.read x := by
  induction m with
  | nil => exact Memory.read_put (by simp) x
  | cons d m ih =>
    have hl := Memory.lower_of_wf h
    unfold Memory.write
    split
    · refine Memory.read_put (fun c hc => ?_) x
      rcases List.mem_cons.mp hc with rfl | hc
      · assumption
      · exact lt_trans ‹_› (hl c hc)
    · split
      · subst a
        rw [Memory.read_put hl, Memory.read]
        split <;> rfl
      · rw [Memory.read, Memory.read, ih (Memory.wf_tail h)]
        split
        · rw [if_neg (by omega)]
        · rfl

theorem Memory.writeBytes_wf {m : Memory} (h : m.wf) (a : Nat) (s : List Byte) :
    (m.writeBytes a s).wf := by
  induction s generalizing m a with
  | nil => exact h
  | cons b s ih => exact ih (Memory.write_wf h a b) (a + 1)

theorem Memory.mem_writeBytes {m : Memory} {a : Nat} {s : List Byte} {c : Host.Cell}
    (h : c ∈ m.writeBytes a s) : (a ≤ c.1 ∧ c.1 < a + s.length) ∨ c ∈ m := by
  induction s generalizing m a with
  | nil => exact .inr h
  | cons b s ih =>
    rw [List.length_cons]
    rcases ih h with h | h
    · exact .inl (by omega)
    · rcases Memory.mem_write h with h | h
      · exact .inl (by omega)
      · exact .inr h

/-- A byte string stored from `a` on: the bytes it covers read as the string, every other byte is as
before. -/
theorem Memory.read_writeBytes {m : Memory} (h : m.wf) (a : Nat) (s : List Byte) (x : Nat) :
    (m.writeBytes a s).read x =
      if a ≤ x ∧ x < a + s.length then s.getD (x - a) 0 else m.read x := by
  induction s generalizing m a with
  | nil =>
    rw [if_neg (by simp)]
    rfl
  | cons b s ih =>
    rw [Memory.writeBytes, ih (Memory.write_wf h a b), List.length_cons, Memory.read_write h]
    by_cases hx : x = a
    · subst hx
      simp
    · by_cases h1 : a + 1 ≤ x ∧ x < a + 1 + s.length
      · rw [if_pos h1, if_pos (by omega)]
        obtain ⟨k, hk⟩ : ∃ k, x - a = k + 1 := ⟨x - a - 1, by omega⟩
        rw [hk, List.getD_cons_succ]
        congr 1
        omega
      · rw [if_neg h1, if_neg hx, if_neg (by omega)]

theorem Memory.ofBytes_wf (s : List Byte) : (Memory.ofBytes s).wf := Memory.writeBytes_wf Memory.wf_nil 0 s

theorem Memory.mem_ofBytes {s : List Byte} {c : Host.Cell} (h : c ∈ Memory.ofBytes s) :
    c.1 < s.length := by
  rcases Memory.mem_writeBytes h with h | h
  · omega
  · simp at h

/-- A byte array made from a byte string reads as the string, and zero after it. -/
theorem Memory.read_ofBytes (s : List Byte) (x : Nat) : (Memory.ofBytes s).read x = s.getD x 0 := by
  rw [Memory.ofBytes, Memory.read_writeBytes Memory.wf_nil]
  by_cases h : x < s.length
  · rw [if_pos (by omega), Nat.sub_zero]
  · rw [if_neg (by omega), List.getD_eq_default _ _ (by omega)]
    rfl

@[simp] theorem Memory.readBytes_length (m : Memory) (a n : Nat) : (m.readBytes a n).length = n := by
  simp [Memory.readBytes]

theorem Memory.readBytes_getD (m : Memory) (a n k : Nat) (h : k < n) :
    (m.readBytes a n).getD k 0 = m.read (a + k) := by
  simp [Memory.readBytes, h]

theorem Memory.readBytes_congr {m m' : Memory} {a n : Nat}
    (h : ∀ k, a ≤ k → k < a + n → m.read k = m'.read k) : m.readBytes a n = m'.readBytes a n := by
  refine List.map_congr_left fun k hk => h _ (by omega) ?_
  have := List.mem_range.mp hk
  omega

theorem Memory.readBytes_ofBytes (s : List Byte) : (Memory.ofBytes s).readBytes 0 s.length = s := by
  refine List.ext_getElem (by simp) fun k h1 h2 => ?_
  simp [Memory.readBytes, Memory.read_ofBytes, h2]

theorem Memory.writeWord_wf {m : Memory} (h : m.wf) (k : Nat) (v : Word) : (m.writeWord k v).wf :=
  Memory.writeBytes_wf h _ _

theorem Memory.mem_writeWord {m : Memory} {k : Nat} {v : Word} {c : Host.Cell}
    (h : c ∈ m.writeWord k v) : (4 * k ≤ c.1 ∧ c.1 < 4 * k + 4) ∨ c ∈ m := by
  simpa using Memory.mem_writeBytes h

/-- One word stored, byte by byte (20_memory.md R80, R86). -/
theorem Memory.read_writeWord {m : Memory} (h : m.wf) (k : Nat) (v : Word) (x : Nat) :
    (m.writeWord k v).read x =
      if 4 * k ≤ x ∧ x < 4 * k + 4 then (bytes32 v).getD (x - 4 * k) 0 else m.read x := by
  rw [Memory.writeWord, Memory.read_writeBytes h, bytes32_length]

/-- A word read straight after it is written is the word written (70_reset_and_hazards.md R316). -/
theorem Memory.readWord_writeWord {m : Memory} (h : m.wf) (k : Nat) (v : Word) :
    (m.writeWord k v).readWord k = v := by
  have hb : (m.writeWord k v).readBytes (4 * k) 4 = bytes32 v := by
    refine List.ext_getElem (by simp) fun p h1 h2 => ?_
    have hp : p < 4 := by simpa using h2
    simp [Memory.readBytes, Memory.read_writeWord h, hp]
  rw [Memory.readWord, hb, be32_bytes32]

/-- Two canonical byte arrays that read alike are equal data. -/
theorem Memory.ext_of_wf {m m' : Memory} (h : m.wf) (h' : m'.wf) (hr : ∀ a, m.read a = m'.read a) :
    m = m' := by
  induction m generalizing m' with
  | nil =>
    cases m' with
    | nil => rfl
    | cons c m' =>
      have := hr c.1
      rw [Memory.read, Memory.read, if_pos rfl] at this
      exact absurd this.symm (h'.2 c List.mem_cons_self)
  | cons d m ih =>
    cases m' with
    | nil =>
      have := hr d.1
      rw [Memory.read, Memory.read, if_pos rfl] at this
      exact absurd this (h.2 d List.mem_cons_self)
    | cons c m' =>
      have hl := Memory.lower_of_wf h
      have hl' := Memory.lower_of_wf h'
      have hd := h.2 d List.mem_cons_self
      have hc := h'.2 c List.mem_cons_self
      have h1 : d.1 = c.1 := by
        rcases lt_trichotomy d.1 c.1 with hlt | heq | hgt
        · have := hr d.1
          rw [Memory.read, if_pos rfl, Memory.read_of_lower (m := c :: m')] at this
          · exact absurd this hd
          · intro x hx
            rcases List.mem_cons.mp hx with rfl | hx
            · exact hlt
            · exact lt_trans hlt (hl' x hx)
        · exact heq
        · have := hr c.1
          rw [Memory.read_of_lower (m := d :: m), Memory.read, if_pos rfl] at this
          · exact absurd this.symm hc
          · intro x hx
            rcases List.mem_cons.mp hx with rfl | hx
            · exact hgt
            · exact lt_trans hgt (hl x hx)
      have h2 : d = c := by
        have := hr d.1
        rw [Memory.read, if_pos rfl, Memory.read, if_pos h1] at this
        exact Prod.ext h1 this
      subst h2
      congr 1
      refine ih (Memory.wf_tail h) (Memory.wf_tail h') fun a => ?_
      have := hr a
      rw [Memory.read, Memory.read] at this
      by_cases ha : a = d.1
      · rw [ha, Memory.read_of_lower hl, Memory.read_of_lower hl']
      · rwa [if_neg ha, if_neg ha] at this

end Sys2Proof.Machine
end

