-- ==== Sys2Proof/Laws/State.lean ====
section
/-! SUPPORT. One lemma per field per update of the state, true by rfl, so that no proof unfolds a record
update. -/

namespace Sys2Proof.Machine

section
variable  (s : State)

@[simp] theorem State.clearCommand_cfg : (s.clearCommand).cfg = s.cfg := rfl
@[simp] theorem State.clearCommand_ie : (s.clearCommand).ie = s.ie := rfl
@[simp] theorem State.clearCommand_status : (s.clearCommand).status = s.status := rfl
@[simp] theorem State.clearCommand_kekLen : (s.clearCommand).kekLen = s.kekLen := rfl
@[simp] theorem State.clearCommand_dataLen : (s.clearCommand).dataLen = s.dataLen := rfl
@[simp] theorem State.clearCommand_outLen : (s.clearCommand).outLen = s.outLen := rfl
@[simp] theorem State.clearCommand_kekb : (s.clearCommand).kekb = [] := rfl
@[simp] theorem State.clearCommand_buf : (s.clearCommand).buf = s.buf := rfl
@[simp] theorem State.clearCommand_work : (s.clearCommand).work = Work.zero s.cfg.nMax := rfl
@[simp] theorem State.clearCommand_snap : (s.clearCommand).snap = Snapshot.zero := rfl
@[simp] theorem State.clearCommand_phase : (s.clearCommand).phase = .idle := rfl
@[simp] theorem State.clearCommand_j : (s.clearCommand).j = 0 := rfl
@[simp] theorem State.clearCommand_i : (s.clearCommand).i = 0 := rfl
@[simp] theorem State.clearCommand_host : (s.clearCommand).host = s.host := rfl
@[simp] theorem State.clearCommand_turns : (s.clearCommand).turns = s.turns := rfl
@[simp] theorem State.clearCommand_responses : (s.clearCommand).responses = s.responses := rfl

end

section
variable (out : List Byte) (s : State)

@[simp] theorem State.succeed_cfg : (s.succeed out).cfg = s.cfg := rfl
@[simp] theorem State.succeed_ie : (s.succeed out).ie = s.ie := rfl
@[simp] theorem State.succeed_status : (s.succeed out).status = Status.completed .none := rfl
@[simp] theorem State.succeed_kekLen : (s.succeed out).kekLen = s.kekLen := rfl
@[simp] theorem State.succeed_dataLen : (s.succeed out).dataLen = s.dataLen := rfl
@[simp] theorem State.succeed_outLen : (s.succeed out).outLen = BitVec.ofNat 32 out.length := rfl
@[simp] theorem State.succeed_kekb : (s.succeed out).kekb = [] := rfl
@[simp] theorem State.succeed_buf : (s.succeed out).buf = Memory.ofBytes out := rfl
@[simp] theorem State.succeed_work : (s.succeed out).work = Work.zero s.cfg.nMax := rfl
@[simp] theorem State.succeed_snap : (s.succeed out).snap = Snapshot.zero := rfl
@[simp] theorem State.succeed_phase : (s.succeed out).phase = .idle := rfl
@[simp] theorem State.succeed_j : (s.succeed out).j = 0 := rfl
@[simp] theorem State.succeed_i : (s.succeed out).i = 0 := rfl
@[simp] theorem State.succeed_host : (s.succeed out).host = s.host := rfl
@[simp] theorem State.succeed_turns : (s.succeed out).turns = s.turns := rfl
@[simp] theorem State.succeed_responses : (s.succeed out).responses = s.responses := rfl

end

section
variable (e : ErrCode) (s : State)

@[simp] theorem State.fail_cfg : (s.fail e).cfg = s.cfg := rfl
@[simp] theorem State.fail_ie : (s.fail e).ie = s.ie := rfl
@[simp] theorem State.fail_status : (s.fail e).status = Status.completed e := rfl
@[simp] theorem State.fail_kekLen : (s.fail e).kekLen = s.kekLen := rfl
@[simp] theorem State.fail_dataLen : (s.fail e).dataLen = s.dataLen := rfl
@[simp] theorem State.fail_outLen : (s.fail e).outLen = 0 := rfl
@[simp] theorem State.fail_kekb : (s.fail e).kekb = [] := rfl
@[simp] theorem State.fail_buf : (s.fail e).buf = [] := rfl
@[simp] theorem State.fail_work : (s.fail e).work = Work.zero s.cfg.nMax := rfl
@[simp] theorem State.fail_snap : (s.fail e).snap = Snapshot.zero := rfl
@[simp] theorem State.fail_phase : (s.fail e).phase = .idle := rfl
@[simp] theorem State.fail_j : (s.fail e).j = 0 := rfl
@[simp] theorem State.fail_i : (s.fail e).i = 0 := rfl
@[simp] theorem State.fail_host : (s.fail e).host = s.host := rfl
@[simp] theorem State.fail_turns : (s.fail e).turns = s.turns := rfl
@[simp] theorem State.fail_responses : (s.fail e).responses = s.responses := rfl

end

section
variable  (s : State)

@[simp] theorem State.resetBlock_cfg : (s.resetBlock).cfg = s.cfg := rfl
@[simp] theorem State.resetBlock_ie : (s.resetBlock).ie = false := rfl
@[simp] theorem State.resetBlock_status : (s.resetBlock).status = { busy := false, done := false, err := .none } := rfl
@[simp] theorem State.resetBlock_kekLen : (s.resetBlock).kekLen = 0 := rfl
@[simp] theorem State.resetBlock_dataLen : (s.resetBlock).dataLen = 0 := rfl
@[simp] theorem State.resetBlock_outLen : (s.resetBlock).outLen = 0 := rfl
@[simp] theorem State.resetBlock_kekb : (s.resetBlock).kekb = [] := rfl
@[simp] theorem State.resetBlock_buf : (s.resetBlock).buf = [] := rfl
@[simp] theorem State.resetBlock_work : (s.resetBlock).work = Work.zero s.cfg.nMax := rfl
@[simp] theorem State.resetBlock_snap : (s.resetBlock).snap = Snapshot.zero := rfl
@[simp] theorem State.resetBlock_phase : (s.resetBlock).phase = .idle := rfl
@[simp] theorem State.resetBlock_j : (s.resetBlock).j = 0 := rfl
@[simp] theorem State.resetBlock_i : (s.resetBlock).i = 0 := rfl
@[simp] theorem State.resetBlock_host : (s.resetBlock).host = s.host := rfl
@[simp] theorem State.resetBlock_turns : (s.resetBlock).turns = s.turns := rfl
@[simp] theorem State.resetBlock_responses : (s.resetBlock).responses = s.responses := rfl

end

section
variable (r : Response) (s : State)

@[simp] theorem State.record_cfg : (s.record r).cfg = s.cfg := rfl
@[simp] theorem State.record_ie : (s.record r).ie = s.ie := rfl
@[simp] theorem State.record_status : (s.record r).status = s.status := rfl
@[simp] theorem State.record_kekLen : (s.record r).kekLen = s.kekLen := rfl
@[simp] theorem State.record_dataLen : (s.record r).dataLen = s.dataLen := rfl
@[simp] theorem State.record_outLen : (s.record r).outLen = s.outLen := rfl
@[simp] theorem State.record_kekb : (s.record r).kekb = s.kekb := rfl
@[simp] theorem State.record_buf : (s.record r).buf = s.buf := rfl
@[simp] theorem State.record_work : (s.record r).work = s.work := rfl
@[simp] theorem State.record_snap : (s.record r).snap = s.snap := rfl
@[simp] theorem State.record_phase : (s.record r).phase = s.phase := rfl
@[simp] theorem State.record_j : (s.record r).j = s.j := rfl
@[simp] theorem State.record_i : (s.record r).i = s.i := rfl
@[simp] theorem State.record_host : (s.record r).host = s.host := rfl
@[simp] theorem State.record_turns : (s.record r).turns = s.turns := rfl
@[simp] theorem State.record_responses : (s.record r).responses = r :: s.responses := rfl

end

section
variable (r : CmdResult) (s : State)

@[simp] theorem State.toFinish_cfg : (s.toFinish r).cfg = s.cfg := rfl
@[simp] theorem State.toFinish_ie : (s.toFinish r).ie = s.ie := rfl
@[simp] theorem State.toFinish_status : (s.toFinish r).status = s.status := rfl
@[simp] theorem State.toFinish_kekLen : (s.toFinish r).kekLen = s.kekLen := rfl
@[simp] theorem State.toFinish_dataLen : (s.toFinish r).dataLen = s.dataLen := rfl
@[simp] theorem State.toFinish_outLen : (s.toFinish r).outLen = s.outLen := rfl
@[simp] theorem State.toFinish_kekb : (s.toFinish r).kekb = s.kekb := rfl
@[simp] theorem State.toFinish_buf : (s.toFinish r).buf = s.buf := rfl
@[simp] theorem State.toFinish_work : (s.toFinish r).work = s.work := rfl
@[simp] theorem State.toFinish_snap : (s.toFinish r).snap = s.snap := rfl
@[simp] theorem State.toFinish_phase : (s.toFinish r).phase = .finish r := rfl
@[simp] theorem State.toFinish_j : (s.toFinish r).j = s.j := rfl
@[simp] theorem State.toFinish_i : (s.toFinish r).i = s.i := rfl
@[simp] theorem State.toFinish_host : (s.toFinish r).host = s.host := rfl
@[simp] theorem State.toFinish_turns : (s.toFinish r).turns = s.turns := rfl
@[simp] theorem State.toFinish_responses : (s.toFinish r).responses = s.responses := rfl

end

section
variable (n : Nat) (iv : Half) (p : List Byte) (s : State)

@[simp] theorem State.startWrap_cfg : (s.startWrap n iv p).cfg = s.cfg := rfl
@[simp] theorem State.startWrap_ie : (s.startWrap n iv p).ie = s.ie := rfl
@[simp] theorem State.startWrap_status : (s.startWrap n iv p).status = s.status := rfl
@[simp] theorem State.startWrap_kekLen : (s.startWrap n iv p).kekLen = s.kekLen := rfl
@[simp] theorem State.startWrap_dataLen : (s.startWrap n iv p).dataLen = s.dataLen := rfl
@[simp] theorem State.startWrap_outLen : (s.startWrap n iv p).outLen = s.outLen := rfl
@[simp] theorem State.startWrap_kekb : (s.startWrap n iv p).kekb = s.kekb := rfl
@[simp] theorem State.startWrap_buf : (s.startWrap n iv p).buf = s.buf := rfl
@[simp] theorem State.startWrap_work : (s.startWrap n iv p).work = loadWrap n iv p s.work := rfl
@[simp] theorem State.startWrap_snap : (s.startWrap n iv p).snap = s.snap := rfl
@[simp] theorem State.startWrap_phase : (s.startWrap n iv p).phase = .wrapStep := rfl
@[simp] theorem State.startWrap_j : (s.startWrap n iv p).j = 0 := rfl
@[simp] theorem State.startWrap_i : (s.startWrap n iv p).i = 1 := rfl
@[simp] theorem State.startWrap_host : (s.startWrap n iv p).host = s.host := rfl
@[simp] theorem State.startWrap_turns : (s.startWrap n iv p).turns = s.turns := rfl
@[simp] theorem State.startWrap_responses : (s.startWrap n iv p).responses = s.responses := rfl

end

section
variable (n : Nat) (x : List Byte) (s : State)

@[simp] theorem State.startUnwrap_cfg : (s.startUnwrap n x).cfg = s.cfg := rfl
@[simp] theorem State.startUnwrap_ie : (s.startUnwrap n x).ie = s.ie := rfl
@[simp] theorem State.startUnwrap_status : (s.startUnwrap n x).status = s.status := rfl
@[simp] theorem State.startUnwrap_kekLen : (s.startUnwrap n x).kekLen = s.kekLen := rfl
@[simp] theorem State.startUnwrap_dataLen : (s.startUnwrap n x).dataLen = s.dataLen := rfl
@[simp] theorem State.startUnwrap_outLen : (s.startUnwrap n x).outLen = s.outLen := rfl
@[simp] theorem State.startUnwrap_kekb : (s.startUnwrap n x).kekb = s.kekb := rfl
@[simp] theorem State.startUnwrap_buf : (s.startUnwrap n x).buf = s.buf := rfl
@[simp] theorem State.startUnwrap_work : (s.startUnwrap n x).work = loadUnwrap n x s.work := rfl
@[simp] theorem State.startUnwrap_snap : (s.startUnwrap n x).snap = s.snap := rfl
@[simp] theorem State.startUnwrap_phase : (s.startUnwrap n x).phase = .unwrapStep := rfl
@[simp] theorem State.startUnwrap_j : (s.startUnwrap n x).j = 5 := rfl
@[simp] theorem State.startUnwrap_i : (s.startUnwrap n x).i = n := rfl
@[simp] theorem State.startUnwrap_host : (s.startUnwrap n x).host = s.host := rfl
@[simp] theorem State.startUnwrap_turns : (s.startUnwrap n x).turns = s.turns := rfl
@[simp] theorem State.startUnwrap_responses : (s.startUnwrap n x).responses = s.responses := rfl

end

section
variable (p : List Byte) (s : State)

@[simp] theorem State.startShortEnc_cfg : (s.startShortEnc p).cfg = s.cfg := rfl
@[simp] theorem State.startShortEnc_ie : (s.startShortEnc p).ie = s.ie := rfl
@[simp] theorem State.startShortEnc_status : (s.startShortEnc p).status = s.status := rfl
@[simp] theorem State.startShortEnc_kekLen : (s.startShortEnc p).kekLen = s.kekLen := rfl
@[simp] theorem State.startShortEnc_dataLen : (s.startShortEnc p).dataLen = s.dataLen := rfl
@[simp] theorem State.startShortEnc_outLen : (s.startShortEnc p).outLen = s.outLen := rfl
@[simp] theorem State.startShortEnc_kekb : (s.startShortEnc p).kekb = s.kekb := rfl
@[simp] theorem State.startShortEnc_buf : (s.startShortEnc p).buf = s.buf := rfl
@[simp] theorem State.startShortEnc_work : (s.startShortEnc p).work = loadWrap 1 (aiv p.length) (padPlaintext p) s.work := rfl
@[simp] theorem State.startShortEnc_snap : (s.startShortEnc p).snap = s.snap := rfl
@[simp] theorem State.startShortEnc_phase : (s.startShortEnc p).phase = .shortEnc := rfl
@[simp] theorem State.startShortEnc_j : (s.startShortEnc p).j = s.j := rfl
@[simp] theorem State.startShortEnc_i : (s.startShortEnc p).i = s.i := rfl
@[simp] theorem State.startShortEnc_host : (s.startShortEnc p).host = s.host := rfl
@[simp] theorem State.startShortEnc_turns : (s.startShortEnc p).turns = s.turns := rfl
@[simp] theorem State.startShortEnc_responses : (s.startShortEnc p).responses = s.responses := rfl

end

section
variable  (s : State)

@[simp] theorem State.startShortDec_cfg : (s.startShortDec).cfg = s.cfg := rfl
@[simp] theorem State.startShortDec_ie : (s.startShortDec).ie = s.ie := rfl
@[simp] theorem State.startShortDec_status : (s.startShortDec).status = s.status := rfl
@[simp] theorem State.startShortDec_kekLen : (s.startShortDec).kekLen = s.kekLen := rfl
@[simp] theorem State.startShortDec_dataLen : (s.startShortDec).dataLen = s.dataLen := rfl
@[simp] theorem State.startShortDec_outLen : (s.startShortDec).outLen = s.outLen := rfl
@[simp] theorem State.startShortDec_kekb : (s.startShortDec).kekb = s.kekb := rfl
@[simp] theorem State.startShortDec_buf : (s.startShortDec).buf = s.buf := rfl
@[simp] theorem State.startShortDec_work : (s.startShortDec).work = s.work := rfl
@[simp] theorem State.startShortDec_snap : (s.startShortDec).snap = s.snap := rfl
@[simp] theorem State.startShortDec_phase : (s.startShortDec).phase = .shortDec := rfl
@[simp] theorem State.startShortDec_j : (s.startShortDec).j = s.j := rfl
@[simp] theorem State.startShortDec_i : (s.startShortDec).i = s.i := rfl
@[simp] theorem State.startShortDec_host : (s.startShortDec).host = s.host := rfl
@[simp] theorem State.startShortDec_turns : (s.startShortDec).turns = s.turns := rfl
@[simp] theorem State.startShortDec_responses : (s.startShortDec).responses = s.responses := rfl

end

section
variable (r : CmdResult) (s : State)

/-! FINISH leaves the host's registers, the parameters and the host alone, whatever the result. -/

@[simp] theorem State.finish_cfg : (s.finish r).cfg = s.cfg := by cases r <;> rfl
@[simp] theorem State.finish_ie : (s.finish r).ie = s.ie := by cases r <;> rfl
@[simp] theorem State.finish_kekLen : (s.finish r).kekLen = s.kekLen := by cases r <;> rfl
@[simp] theorem State.finish_dataLen : (s.finish r).dataLen = s.dataLen := by cases r <;> rfl
@[simp] theorem State.finish_host : (s.finish r).host = s.host := by cases r <;> rfl
@[simp] theorem State.finish_turns : (s.finish r).turns = s.turns := by cases r <;> rfl
@[simp] theorem State.finish_responses : (s.finish r).responses = s.responses := by cases r <;> rfl
@[simp] theorem State.finish_kekb : (s.finish r).kekb = [] := by cases r <;> rfl
@[simp] theorem State.finish_work : (s.finish r).work = Work.zero s.cfg.nMax := by cases r <;> rfl
@[simp] theorem State.finish_snap : (s.finish r).snap = Snapshot.zero := by cases r <;> rfl
@[simp] theorem State.finish_phase : (s.finish r).phase = .idle := by cases r <;> rfl
@[simp] theorem State.finish_j : (s.finish r).j = 0 := by cases r <;> rfl
@[simp] theorem State.finish_i : (s.finish r).i = 0 := by cases r <;> rfl

end

section
variable (v : Word) (s : State)

/-! Acceptance leaves everything but STATUS, OUT_LEN, the snapshot and the phase alone. -/

@[simp] theorem State.accept_cfg : (s.accept v).cfg = s.cfg := by unfold State.accept; split <;> rfl
@[simp] theorem State.accept_ie : (s.accept v).ie = s.ie := by unfold State.accept; split <;> rfl
@[simp] theorem State.accept_kekLen : (s.accept v).kekLen = s.kekLen := by unfold State.accept; split <;> rfl
@[simp] theorem State.accept_dataLen : (s.accept v).dataLen = s.dataLen := by unfold State.accept; split <;> rfl
@[simp] theorem State.accept_kekb : (s.accept v).kekb = s.kekb := by unfold State.accept; split <;> rfl
@[simp] theorem State.accept_buf : (s.accept v).buf = s.buf := by unfold State.accept; split <;> rfl
@[simp] theorem State.accept_work : (s.accept v).work = s.work := by unfold State.accept; split <;> rfl
@[simp] theorem State.accept_j : (s.accept v).j = s.j := by unfold State.accept; split <;> rfl
@[simp] theorem State.accept_i : (s.accept v).i = s.i := by unfold State.accept; split <;> rfl
@[simp] theorem State.accept_host : (s.accept v).host = s.host := by unfold State.accept; split <;> rfl
@[simp] theorem State.accept_turns : (s.accept v).turns = s.turns := by unfold State.accept; split <;> rfl
@[simp] theorem State.accept_responses : (s.accept v).responses = s.responses := by unfold State.accept; split <;> rfl

/-- A word other than 0 is accepted (42_commands.md R220). -/
theorem State.accept_of_ne (h : v ≠ 0) : s.accept v =
    { s with status := .accepted, outLen := 0, snap := s.takeSnapshot v, phase := .check } := if_neg h

/-- The word 0 is NOP: acceptance changes nothing (42_commands.md R220). -/
@[simp] theorem State.accept_zero : s.accept 0#32 = s := rfl

end

@[simp] theorem Status.completed_busy (e : ErrCode) : (Status.completed e).busy = false := rfl

@[simp] theorem Status.completed_done (e : ErrCode) : (Status.completed e).done = true := rfl

@[simp] theorem Status.completed_err (e : ErrCode) : (Status.completed e).err = e := rfl

@[simp] theorem Status.accepted_busy : Status.accepted.busy = true := rfl

@[simp] theorem Status.accepted_done : Status.accepted.done = false := rfl

@[simp] theorem Status.accepted_err : Status.accepted.err = .none := rfl

section
variable (v : Word) (s : State)

@[simp] theorem State.takeSnapshot_klen : (s.takeSnapshot v).klen = s.kekLen := rfl

@[simp] theorem State.takeSnapshot_kb : (s.takeSnapshot v).kb = s.kekb := rfl

@[simp] theorem State.takeSnapshot_len : (s.takeSnapshot v).len = s.dataLen := rfl

@[simp] theorem State.takeSnapshot_inp : (s.takeSnapshot v).inp = s.buf := rfl

end

end Sys2Proof.Machine
end

