-- ==== Sys2Proof/Laws/Ops.lean ====
section
/-! SUPPORT. What the shared operations do: acceptance, execution and completion of a command word. -/

namespace Sys2Proof.Machine

/-- The snapshot holds the accepted word (10_state.md R50). -/
@[simp] theorem takeSnapshot_word (v : Word) (s : State) : (s.takeSnapshot v).word = v :=
  commandWord_fields v

@[simp] theorem takeSnapshot_key (v : Word) (s : State) : (s.takeSnapshot v).key = s.hostKey := rfl

@[simp] theorem takeSnapshot_input (v : Word) (s : State) : (s.takeSnapshot v).input = s.hostInput := rfl

@[simp] theorem takeSnapshot_length (v : Word) (s : State) :
    (s.takeSnapshot v).length = s.dataLen.toNat := rfl

@[simp] theorem Snapshot.input_length (q : Snapshot) : q.input.length = q.length := by
  simp [Snapshot.input]

@[simp] theorem State.hostInput_length (s : State) : s.hostInput.length = s.dataLen.toNat := by
  simp [State.hostInput]

@[simp] theorem State.hostKey_length (s : State) : s.hostKey.length = s.kekLen.toNat := by
  simp [State.hostKey]

/-- The cipher's inverse law (00_scope.md R8). -/
@[simp] theorem decryptBlock_encryptBlock (k : List Byte) (x : Block) :
    decryptBlock k (encryptBlock k x) = x := by simp [decryptBlock, encryptBlock]

@[simp] theorem encryptBlock_decryptBlock (k : List Byte) (x : Block) :
    encryptBlock k (decryptBlock k x) = x := by simp [decryptBlock, encryptBlock]

/-- `Execute` by the decoded command (42_commands.md R224). -/
theorem execute_of_decode {c : Config} {q : Snapshot} {i : Instr} (h : decode q.word = .command i) :
    execute c q = commandResult i c q := by
  unfold execute
  rw [h]

theorem execute_of_illegal {c : Config} {q : Snapshot} {w : IllegalWord}
    (h : decode q.word = .illegal w) : execute c q = .err .illegalCommand := by
  unfold execute
  rw [h]

theorem encode_ne_zero {i : Instr} (h : i ≠ .nop) : encode i ≠ 0 := by
  cases i <;> first | exact absurd rfl h | decide

/-- A word run to completion by a block that is not busy: accepted, executed, finished. -/
theorem runCommand_of_idle {v : Word} {f : Config → Snapshot → CmdResult} {s : State}
    (hb : s.status.busy = false) (hv : v ≠ 0) :
    s.runCommand v f = (s.accept v).finish (f s.cfg (s.takeSnapshot v)) := by
  rw [State.runCommand, if_neg (by simp [hb]), s.accept_of_ne v hv]

/-- The meaning of a command other than NOP on a block that is not busy. -/
theorem exec_of_idle {i : Instr} {s : State} (hi : i ≠ .nop) (hb : s.status.busy = false) :
    exec i s = .next ((s.accept (encode i)).finish (execute s.cfg (s.takeSnapshot (encode i)))) := by
  have hv := encode_ne_zero hi
  have he := execute_of_decode (c := s.cfg) (q := s.takeSnapshot (encode i)) (i := i) (by simp)
  cases i with
  | nop => exact absurd rfl hi
  | wrap => exact congrArg _ ((runCommand_of_idle hb hv).trans (by rw [he, commandResult]))
  | unwrap => exact congrArg _ ((runCommand_of_idle hb hv).trans (by rw [he, commandResult]))
  | wrapPad => exact congrArg _ ((runCommand_of_idle hb hv).trans (by rw [he, commandResult]))
  | unwrapPad => exact congrArg _ ((runCommand_of_idle hb hv).trans (by rw [he, commandResult]))

theorem runCommand_of_busy {v : Word} {f : Config → Snapshot → CmdResult} {s : State}
    (hb : s.status.busy = true) : s.runCommand v f = s := if_pos hb

/-- Everything a command word written to `CMD` and run to completion can do. -/
theorem runWord_eq (v : Word) (s : State) :
    runWord v s = .next (if s.status.busy = true ∨ v = 0 then s
      else (s.accept v).finish (execute s.cfg (s.takeSnapshot v))) := by
  unfold runWord
  cases hd : decode v with
  | command i =>
    have hv := eq_encode_of_decode hd
    subst hv
    cases hb : s.status.busy with
    | true =>
      rw [if_pos (.inl rfl)]
      cases i <;> simp [exec, execNop, execWrap, execUnwrap, execWrapPad, execUnwrapPad,
        runCommand_of_busy hb, hb]
    | false =>
      by_cases hi : i = .nop
      · subst hi
        rw [if_pos (.inr rfl)]
        exact congrArg _ (if_neg (by simp [hb]))
      · rw [if_neg (by rintro (h | h); exacts [absurd h (by simp), encode_ne_zero hi h])]
        exact exec_of_idle hi hb
  | illegal w =>
    have hv : v ≠ 0 := by
      rintro rfl
      cases hd
    cases hb : s.status.busy with
    | true => simp [State.runIllegal, runCommand_of_busy hb]
    | false =>
      simp only [State.runIllegal]
      rw [runCommand_of_idle hb hv, if_neg (by rintro (h | h); exacts [absurd h (by simp), hv h]), execute_of_illegal (w := w) (by simpa)]

end Sys2Proof.Machine
end

