-- ==== Sys2Proof/Laws/Padding.lean ====
section
/-! SUPPORT. The laws of the padding extension (41_padding_extension.md R190). -/

namespace Sys2Proof.Machine

@[simp] theorem ivPrefix_aiv (mli : Nat) : ivPrefix (aiv mli) = aivPrefix := by
  apply BitVec.eq_of_getLsbD_eq
  intro i hi
  simp only [ivPrefix, aiv, BitVec.getLsbD_extractLsb', BitVec.getLsbD_append]
  rw [if_neg (by omega), Nat.add_sub_cancel_left]
  simp [hi]

@[simp] theorem ivMli_aiv {mli : Nat} (h : mli < 2 ^ 32) : ivMli (aiv mli) = mli := by
  have : (aiv mli).extractLsb' 0 32 = BitVec.ofNat 32 mli := by
    apply BitVec.eq_of_getLsbD_eq
    intro i hi
    simp only [aiv, BitVec.getLsbD_extractLsb', BitVec.getLsbD_append]
    simp [hi]
  rw [ivMli, this, BitVec.toNat_ofNat, Nat.mod_eq_of_lt h]

/-- A register's number, split into its first and last four bytes. -/
theorem beNat_bytes64_split (s : Half) :
    2 ^ 32 * beNat ((bytes64 s).take 4) + beNat ((bytes64 s).drop 4) = s.toNat ∧
      beNat ((bytes64 s).drop 4) < 2 ^ 32 := by
  have hl : ((bytes64 s).drop 4).length = 4 := by simp
  have hlt := beNat_lt ((bytes64 s).drop 4)
  have happ := beNat_append ((bytes64 s).take 4) ((bytes64 s).drop 4)
  have hv := s.isLt
  rw [List.take_append_drop, bytes64, beNat_bytesBE, ← bytes64, hl] at happ
  rw [hl] at hlt
  omega

/-- The message length is `be32` of the last four bytes of the IV register (R187). -/
theorem ivMli_eq (s : Half) : ivMli s = beNat ((bytes64 s).drop 4) := by
  have := beNat_bytes64_split s
  rw [ivMli, BitVec.extractLsb'_toNat, Nat.shiftRight_eq_div_pow]
  omega

/-- The prefix check compares the first four bytes of the IV register with `A6 59 59 A6` (R186). -/
theorem ivPrefix_eq_iff (s : Half) :
    ivPrefix s = aivPrefix ↔ (bytes64 s).take 4 = [0xA6, 0x59, 0x59, 0xA6] := by
  have hs := beNat_bytes64_split s
  have hv := s.isLt
  have hp : (ivPrefix s).toNat = beNat ((bytes64 s).take 4) := by
    rw [ivPrefix, BitVec.extractLsb'_toNat, Nat.shiftRight_eq_div_pow]
    omega
  constructor
  · intro h
    have h4 : ((bytes64 s).take 4).length = 4 := by simp
    rw [← bytesBE_beNat ((bytes64 s).take 4), ← hp, h, h4]
    decide
  · intro h
    apply BitVec.eq_of_toNat_eq
    rw [hp, h]
    decide

theorem mliConsistent_iff (mli q : Nat) : mliConsistent mli q = true ↔ q - 8 < mli ∧ mli ≤ q := by
  simp [mliConsistent]

/-- A failing prefix check is what is reported, whatever the length field (R186). -/
theorem checkPadded_of_prefix {z : Bool} {s : Half} {q : List Byte} (h : ivPrefix s ≠ aivPrefix) :
    checkPadded z s q = .err .integrityCheckFailed := if_pos h

/-- The length check comes second (R187). -/
theorem checkPadded_of_length {z : Bool} {s : Half} {q : List Byte} (h : ivPrefix s = aivPrefix)
    (hl : ¬(q.length - 8 < ivMli s ∧ ivMli s ≤ q.length)) :
    checkPadded z s q = .err .lengthFieldInconsistent := by
  rw [← mliConsistent_iff, Bool.not_eq_true] at hl
  rw [checkPadded, if_neg (not_not.mpr h), if_pos (by rw [hl]; rfl)]

/-- The pad check comes third, only under PAD_ZERO_CHECK (R188). -/
theorem checkPadded_of_pad {s : Half} {q : List Byte} (h : ivPrefix s = aivPrefix)
    (hl : q.length - 8 < ivMli s ∧ ivMli s ≤ q.length) (hz : ∃ b ∈ q.drop (ivMli s), b ≠ 0) :
    checkPadded true s q = .err .integrityCheckFailed := by
  rw [← mliConsistent_iff] at hl
  rw [checkPadded, if_neg (not_not.mpr h), if_neg (by rw [hl]; decide),
    if_pos (by simpa using hz)]

/-- All checks passed: the candidate is cut to the message length (R189). -/
theorem checkPadded_of_ok {z : Bool} {s : Half} {q : List Byte} (h : ivPrefix s = aivPrefix)
    (hl : q.length - 8 < ivMli s ∧ ivMli s ≤ q.length) (hz : z = false ∨ ∀ b ∈ q.drop (ivMli s), b = 0) :
    checkPadded z s q = .ok (q.take (ivMli s)) := by
  rw [← mliConsistent_iff] at hl
  rw [checkPadded, if_neg (not_not.mpr h), if_neg (by rw [hl]; decide), if_neg]
  rcases hz with rfl | hz
  · simp
  · simpa using fun _ => hz

theorem le_ceil8 (l : Nat) : l ≤ 8 * ceil8 l ∧ 8 * ceil8 l < l + 8 := by
  unfold ceil8
  omega

/-- The padded plaintext has `8m` bytes (R182). -/
@[simp] theorem padPlaintext_length (p : List Byte) : (padPlaintext p).length = 8 * ceil8 p.length := by
  have := le_ceil8 p.length
  simp [padPlaintext]
  omega

theorem padPlaintext_take (p : List Byte) : (padPlaintext p).take p.length = p := by
  simp [padPlaintext]

theorem padPlaintext_drop (p : List Byte) :
    (padPlaintext p).drop p.length = zeros (8 * ceil8 p.length - p.length) := by
  simp [padPlaintext]

@[simp] theorem shortEncrypt_length (e : Block → Block) (s : Half) (q : List Byte) :
    (shortEncrypt e s q).length = 16 := by simp [shortEncrypt]

/-- The length law of `WP` (R190). -/
theorem padWrapCore_length (e : Block → Block) {p : List Byte} (h : 1 ≤ p.length) :
    (padWrapCore e p).length = if p.length ≤ 8 then 16 else 8 * ceil8 p.length + 8 := by
  have hq := padPlaintext_length p
  have hc := le_ceil8 p.length
  rw [padWrapCore]
  by_cases h8 : p.length ≤ 8
  · rw [if_pos (by unfold ceil8 at *; omega), if_pos h8, shortEncrypt_length]
  · rw [if_neg (by unfold ceil8 at *; omega), if_neg h8, wrapCore_length e _ hq]
    omega

/-- The checks of the padded unwrap pass on what the padded wrap built, whatever PAD_ZERO_CHECK is. -/
theorem checkPadded_padPlaintext (z : Bool) {p : List Byte} (h1 : 1 ≤ p.length)
    (h2 : p.length < 2 ^ 32) : checkPadded z (aiv p.length) (padPlaintext p) = .ok p := by
  have hc := le_ceil8 p.length
  have hpad : ((padPlaintext p).drop p.length).any (· ≠ 0) = false := by
    rw [padPlaintext_drop, zeros]
    simp
  rw [checkPadded, ivPrefix_aiv, ivMli_aiv h2, hpad, padPlaintext_take, padPlaintext_length,
    mliConsistent, decide_eq_true (by omega), decide_eq_true (by omega)]
  simp

/-- The first stage of the padded unwrap recovers the AIV and the padded plaintext (R185). -/
theorem padDecode_padWrapCore {e d : Block → Block} (hed : ∀ x, d (e x) = x) {p : List Byte}
    (h : 1 ≤ p.length) : padDecode d (padWrapCore e p) = (aiv p.length, padPlaintext p) := by
  have hq := padPlaintext_length p
  have hc := le_ceil8 p.length
  have hl := padWrapCore_length e h
  by_cases h8 : (padPlaintext p).length = 8
  · rw [if_pos (by omega)] at hl
    rw [padDecode, if_pos hl, padWrapCore, if_pos h8, shortEncrypt, be128_bytes128, hed]
    simp [bytes64_be64 h8]
  · rw [if_neg (by omega)] at hl
    rw [padDecode, if_neg (by omega), padWrapCore, if_neg h8, unwrapCore_wrapCore hed _ hq]

/-- The round trip of the extension: `UP(K, WP(K, P)) = P` (R190). -/
theorem padUnwrapCore_padWrapCore (z : Bool) {e d : Block → Block} (hed : ∀ x, d (e x) = x)
    {p : List Byte} (h1 : 1 ≤ p.length) (h2 : p.length < 2 ^ 32) :
    padUnwrapCore z d (padWrapCore e p) = .ok p := by
  rw [padUnwrapCore, padDecode_padWrapCore hed h1]
  exact checkPadded_padPlaintext z h1 h2

/-- The candidate of the padded unwrap has `8n` bytes (R187). -/
theorem padDecode_length (d : Block → Block) (c : List Byte) :
    (padDecode d c).2.length = 8 * (c.length / 8 - 1) := by
  unfold padDecode
  split
  · rename_i h16
    simp [h16]
  · exact unwrapCore_length d c

end Sys2Proof.Machine
end

