-- ==== Sys2Proof/Laws/Engine.lean ====
section
/-! SUPPORT. What the engine's steps do: what one step leaves alone, and where the rounds of the chaining
engine lead (10_state.md R51). -/

namespace Sys2Proof.Machine

/-- `t` is `s` but for the working registers, the phase and the counters. -/
def SameButWork (s t : State) : Prop :=
  t = { s with work := t.work, phase := t.phase, j := t.j, i := t.i }

theorem SameButWork.refl (s : State) : SameButWork s s := rfl

theorem SameButWork.trans {s t u : State} (h1 : SameButWork s t) (h2 : SameButWork t u) :
    SameButWork s u := by
  rw [SameButWork, h2, h1]

theorem sameButWork_toFinish (r : CmdResult) (s : State) : SameButWork s (s.toFinish r) := rfl

theorem checkOperands_sameButWork (f : Config → Nat → Bool) {start : State → State}
    (hs : ∀ s, SameButWork s (start s) ∧ (start s).phase ≠ .idle) (s : State) :
    SameButWork s (s.checkOperands f start) ∧ (s.checkOperands f start).phase ≠ .idle := by
  unfold State.checkOperands
  split
  · exact ⟨rfl, by simp⟩
  · exact hs s

theorem startWrapCommand_sameButWork (s : State) :
    SameButWork s s.startWrapCommand ∧ s.startWrapCommand.phase ≠ .idle :=
  ⟨rfl, by simp [State.startWrapCommand]⟩

theorem startUnwrapCommand_sameButWork (s : State) :
    SameButWork s s.startUnwrapCommand ∧ s.startUnwrapCommand.phase ≠ .idle :=
  ⟨rfl, by simp [State.startUnwrapCommand]⟩

theorem startWrapPadCommand_sameButWork (s : State) :
    SameButWork s s.startWrapPadCommand ∧ s.startWrapPadCommand.phase ≠ .idle := by
  unfold State.startWrapPadCommand
  dsimp only
  split
  · exact ⟨rfl, by simp⟩
  · exact ⟨rfl, by simp⟩

theorem startUnwrapPadCommand_sameButWork (s : State) :
    SameButWork s s.startUnwrapPadCommand ∧ s.startUnwrapPadCommand.phase ≠ .idle := by
  unfold State.startUnwrapPadCommand
  split
  · exact ⟨rfl, by simp⟩
  · exact ⟨rfl, by simp⟩

theorem check_sameButWork (s : State) : SameButWork s s.check ∧ s.check.phase ≠ .idle := by
  unfold State.check
  split
  · exact ⟨rfl, by simp⟩
  · exact ⟨rfl, by simp⟩
  · exact checkOperands_sameButWork _ startWrapCommand_sameButWork s
  · exact checkOperands_sameButWork _ startUnwrapCommand_sameButWork s
  · exact checkOperands_sameButWork _ startWrapPadCommand_sameButWork s
  · exact checkOperands_sameButWork _ startUnwrapPadCommand_sameButWork s

/-- Everything one step of the engine can do: nothing when idle, FINISH, or a step that writes only the
working registers and the sequencer (10_state.md R51, R52). -/
theorem engineStep_cases (s : State) :
    (s.phase = .idle ∧ engineStep s = s) ∨
      (∃ r, s.phase = .finish r ∧ engineStep s = s.finish r) ∨
      (s.phase ≠ .idle ∧ (∀ r, s.phase ≠ .finish r) ∧
        SameButWork s (engineStep s) ∧ (engineStep s).phase ≠ .idle) := by
  unfold engineStep
  split
  · rename_i hp
    exact .inl ⟨hp, rfl⟩
  · rename_i hp
    exact .inr (.inr ⟨by simp [hp], by simp [hp], check_sameButWork s⟩)
  · rename_i hp
    refine .inr (.inr ⟨by simp [hp], by simp [hp], ?_⟩)
    unfold State.wrapPhase
    dsimp only
    split
    · exact ⟨rfl, by simp [hp]⟩
    · split
      · exact ⟨rfl, by simp [hp]⟩
      · exact ⟨rfl, by simp⟩
  · rename_i hp
    refine .inr (.inr ⟨by simp [hp], by simp [hp], ?_⟩)
    unfold State.unwrapPhase
    dsimp only
    split
    · exact ⟨rfl, by simp [hp]⟩
    · split
      · exact ⟨rfl, by simp [hp]⟩
      · exact ⟨rfl, by simp⟩
  · rename_i hp
    exact .inr (.inr ⟨by simp [hp], by simp [hp], rfl, by simp [State.shortEncPhase]⟩)
  · rename_i hp
    exact .inr (.inr ⟨by simp [hp], by simp [hp], rfl, by simp [State.shortDecPhase]⟩)
  · rename_i hp
    refine .inr (.inr ⟨by simp [hp], by simp [hp], ?_⟩)
    unfold State.verifyPhase
    dsimp only
    split <;> exact ⟨rfl, by simp⟩
  · rename_i r hp
    exact .inr (.inl ⟨r, hp, rfl⟩)

theorem engineRun_add (m k : Nat) (s : State) : engineRun (m + k) s = engineRun k (engineRun m s) := by
  induction m generalizing s with
  | zero => simp [engineRun]
  | succ m ih => rw [Nat.succ_add, engineRun, ih, engineRun]

/-- A row list read at a position: row `j`, column `k`. -/
theorem flatMap_rows_getElem? {α : Type} (row : Nat → List α) (n : Nat) (hrow : ∀ j, (row j).length = n)
    {m j k : Nat} (hj : j < m) (hk : k < n) :
    ((List.range m).flatMap row)[n * j + k]? = (row j)[k]? := by
  have hlen : ∀ m, ((List.range m).flatMap row).length = n * m := by
    intro m
    simp [List.length_flatMap, hrow, mul_comm]
  induction m with
  | zero => omega
  | succ m ih =>
    rw [List.range_succ, List.flatMap_append, List.flatMap_singleton]
    by_cases hjm : j < m
    · rw [List.getElem?_append_left, ih hjm]
      rw [hlen]
      calc n * j + k < n * j + n := by omega
        _ = n * (j + 1) := by ring
        _ ≤ n * m := Nat.mul_le_mul_left n hjm
    · have : j = m := by omega
      subst this
      rw [List.getElem?_append_right (by rw [hlen]; omega), hlen, Nat.add_sub_cancel_left]

theorem wrapOrder_getElem? {n j k : Nat} (hj : j < 6) (hk : k < n) :
    (wrapOrder n)[n * j + k]? = some (j, k + 1) := by
  rw [wrapOrder, flatMap_rows_getElem? _ n (by simp) hj hk]
  simp [hk]

theorem unwrapOrder_getElem? {n j k : Nat} (hj : j < 6) (hk : k < n) :
    (unwrapOrder n)[n * j + k]? = some (5 - j, n - k) := by
  rw [unwrapOrder, flatMap_rows_getElem? _ n (by simp) hj hk]
  simp [hk]

theorem drop_eq_cons_of_getElem? {α : Type} {l : List α} {k : Nat} {x : α} (h : l[k]? = some x) :
    l.drop k = x :: l.drop (k + 1) := by
  obtain ⟨hk, hx⟩ := List.getElem?_eq_some_iff.mp h
  rw [← hx, List.drop_eq_getElem_cons hk]

/-- From WRAP_STEP(j, i), with `m` wrap steps left, the engine goes through the rest of the rounds and
reaches FINISH with the unloaded registers; it stays in WRAP_STEP until then. -/
theorem engineRun_wrapPhase {n : Nat} (m : Nat) {s : State} (hp : s.phase = .wrapStep)
    (hn : s.snap.blocks = n) (hi1 : 1 ≤ s.i) (hin : s.i ≤ n) (hj : s.j ≤ 5)
    (hm : m + 1 + (n * s.j + (s.i - 1)) = 6 * n) :
    (∀ k ≤ m, (engineRun k s).phase = .wrapStep) ∧
      (engineRun (m + 1) s).phase = .finish (.ok (unloadWrap n
        (((wrapOrder n).drop (n * s.j + (s.i - 1))).foldl
          (fun w p => wrapStep (encryptBlock s.snap.key) n p.1 p.2 w) s.work))) := by
  induction m generalizing s with
  | zero =>
    have hlast : s.i = n ∧ s.j = 5 := by
      have h5 : n * s.j ≤ n * 5 := Nat.mul_le_mul_left n hj
      refine ⟨by omega, ?_⟩
      by_contra hne
      have : n * s.j ≤ n * 4 := Nat.mul_le_mul_left n (by omega)
      omega
    obtain ⟨hi, hj5⟩ := hlast
    refine ⟨fun k hk => ?_, ?_⟩
    · obtain rfl : k = 0 := by omega
      exact hp
    · have hd : (wrapOrder n).drop (n * s.j + (s.i - 1)) = [(s.j, s.i)] := by
        rw [drop_eq_cons_of_getElem? (x := (s.j, s.i)), List.drop_eq_nil_of_le]
        · rw [wrapOrder_length]
          omega
        · rw [wrapOrder_getElem? (by omega) (by omega), Nat.sub_add_cancel hi1]
      rw [hd]
      simp [engineRun, engineStep, hp, State.wrapPhase, hn, hi, hj5]
  | succ m ih =>
    have hmem : (wrapOrder n).drop (n * s.j + (s.i - 1)) =
        (s.j, s.i) :: (wrapOrder n).drop (n * s.j + (s.i - 1) + 1) := by
      refine drop_eq_cons_of_getElem? ?_
      rw [wrapOrder_getElem? (by omega) (by omega), Nat.sub_add_cancel hi1]
    have hstep : ∃ t, engineStep s = t ∧ t.phase = .wrapStep ∧ t.snap = s.snap ∧ 1 ≤ t.i ∧ t.i ≤ n ∧
        t.j ≤ 5 ∧ n * t.j + (t.i - 1) = n * s.j + (s.i - 1) + 1 ∧
        t.work = wrapStep (encryptBlock s.snap.key) n s.j s.i s.work := by
      by_cases hlt : s.i < n
      · refine ⟨{ s with work := wrapStep (encryptBlock s.snap.key) n s.j s.i s.work, i := s.i + 1 },
          by simp [engineStep, hp, State.wrapPhase, hn, hlt], hp, rfl, ?_⟩
        simp
        omega
      · have hj4 : s.j < 5 := by
          by_contra hne
          have h5 : s.j = 5 := by omega
          rw [h5] at hm
          omega
        refine ⟨{ s with work := wrapStep (encryptBlock s.snap.key) n s.j s.i s.work, j := s.j + 1, i := 1 },
          by simp [engineStep, hp, State.wrapPhase, hn, hlt, hj4], hp, rfl, ?_⟩
        simp [Nat.mul_add]
        omega
    obtain ⟨t, ht, htp, hts, h1, h2, h3, h4, hw⟩ := hstep
    have := ih htp (by rw [hts, hn]) h1 h2 h3 (by omega)
    rw [← ht] at this
    refine ⟨fun k hk => ?_, ?_⟩
    · cases k with
      | zero => exact hp
      | succ k => exact this.1 k (by omega)
    · rw [hmem, List.foldl_cons, ← hw, ← hts, ← h4, ← ht]
      exact this.2

/-- From UNWRAP_STEP(j, i), with `m` unwrap steps left, the engine goes through the rest of the rounds and
reaches VERIFY with the recovered registers; it stays in UNWRAP_STEP until then. -/
theorem engineRun_unwrapPhase {n : Nat} (m : Nat) {s : State} (hp : s.phase = .unwrapStep)
    (hn : s.snap.blocks = n) (hi1 : 1 ≤ s.i) (hin : s.i ≤ n) (hj : s.j ≤ 5)
    (hm : m + 1 = n * s.j + s.i) :
    (∀ k ≤ m, (engineRun k s).phase = .unwrapStep) ∧
      (engineRun (m + 1) s).phase = .verify ∧
      (engineRun (m + 1) s).work = ((unwrapOrder n).drop (6 * n - (m + 1))).foldl
          (fun w p => unwrapStep (decryptBlock s.snap.key) n p.1 p.2 w) s.work := by
  have hpos : 6 * n - (m + 1) = n * (5 - s.j) + (n - s.i) := by
    have h5 : n * (5 - s.j) + n * s.j = n * 5 := by
      rw [← Nat.mul_add, Nat.sub_add_cancel hj]
    omega
  have hget : (unwrapOrder n)[6 * n - (m + 1)]? = some (s.j, s.i) := by
    rw [hpos, unwrapOrder_getElem? (by omega) (by omega)]
    congr 2 <;> omega
  induction m generalizing s with
  | zero =>
    have hlast : s.i = 1 ∧ s.j = 0 := by
      rcases Nat.eq_zero_or_pos s.j with h0 | h0
      · rw [h0] at hm
        omega
      · have : n * 1 ≤ n * s.j := Nat.mul_le_mul_left n h0
        omega
    obtain ⟨hi, hj0⟩ := hlast
    refine ⟨fun k hk => ?_, ?_⟩
    · obtain rfl : k = 0 := by omega
      exact hp
    · have hd : (unwrapOrder n).drop (6 * n - (0 + 1)) = [(s.j, s.i)] := by
        rw [drop_eq_cons_of_getElem? hget, List.drop_eq_nil_of_le]
        rw [unwrapOrder_length]
        omega
      rw [hd]
      simp [engineRun, engineStep, hp, State.unwrapPhase, hn, hi, hj0]
  | succ m ih =>
    have hstep : ∃ t, engineStep s = t ∧ t.phase = .unwrapStep ∧ t.snap = s.snap ∧ 1 ≤ t.i ∧ t.i ≤ n ∧
        t.j ≤ 5 ∧ m + 1 = n * t.j + t.i ∧
        t.work = unwrapStep (decryptBlock s.snap.key) n s.j s.i s.work := by
      by_cases hlt : 1 < s.i
      · refine ⟨{ s with work := unwrapStep (decryptBlock s.snap.key) n s.j s.i s.work, i := s.i - 1 },
          by simp [engineStep, hp, State.unwrapPhase, hn, hlt], hp, rfl, ?_⟩
        simp
        omega
      · have hj0 : 0 < s.j := by
          rcases Nat.eq_zero_or_pos s.j with h0 | h0
          · rw [h0] at hm
            omega
          · exact h0
        refine ⟨{ s with work := unwrapStep (decryptBlock s.snap.key) n s.j s.i s.work, j := s.j - 1, i := n },
          by simp [engineStep, hp, State.unwrapPhase, hn, hlt, hj0], hp, rfl, ?_⟩
        have : n * (s.j - 1) + n = n * s.j := by
          rw [← Nat.mul_succ, Nat.succ_eq_add_one, Nat.sub_add_cancel hj0]
        simp
        omega
    obtain ⟨t, ht, htp, hts, h1, h2, h3, h4, hw⟩ := hstep
    have hpos' : 6 * n - (m + 1) = n * (5 - t.j) + (n - t.i) := by
      have h5 : n * (5 - t.j) + n * t.j = n * 5 := by
        rw [← Nat.mul_add, Nat.sub_add_cancel h3]
      omega
    have hget' : (unwrapOrder n)[6 * n - (m + 1)]? = some (t.j, t.i) := by
      rw [hpos', unwrapOrder_getElem? (by omega) (by omega)]
      congr 2 <;> omega
    have := ih htp (by rw [hts, hn]) h1 h2 h3 h4 hpos' hget'
    rw [← ht] at this
    have h6 : 6 * n - (m + 1 + 1) + 1 = 6 * n - (m + 1) := by
      have : n * s.j ≤ n * 5 := Nat.mul_le_mul_left n hj
      omega
    refine ⟨fun k hk => ?_, this.2.1, ?_⟩
    · cases k with
      | zero => exact hp
      | succ k => exact this.1 k (by omega)
    · rw [drop_eq_cons_of_getElem? hget, List.foldl_cons, h6, ← hw, ← hts, ← ht]
      exact this.2.2

end Sys2Proof.Machine
end

