-- ==== Sys2Proof/Laws/PerInstr.lean ====
section
/-! SUPPORT. Statements made for every command, one lemma per constructor. -/

namespace Sys2Proof.Laws.Encoding

/-- The command is well formed; its word has its OP code and RSVD zero, and decodes to it, also as a row of
the opcode table (30_encoding.md R110, R111, R113). -/
def Statement (i : Instr) : Prop :=
  i.wf = true ∧ opField (encode i) = opCode i ∧ rsvdField (encode i) = 0 ∧
    decode (encode i) = .command i ∧ decodeTableWord 32 (encode i).toNat = some i

theorem nop : Statement .nop := by unfold Statement; decide

theorem wrap : Statement .wrap := by unfold Statement; decide

theorem unwrap : Statement .unwrap := by unfold Statement; decide

theorem wrapPad : Statement .wrapPad := by unfold Statement; decide

theorem unwrapPad : Statement .unwrapPad := by unfold Statement; decide

end Sys2Proof.Laws.Encoding
end

