-- ==== Sys2Proof/Laws/Run.lean ====
section
/-! SUPPORT. The engine's run of one command, from CHECK to FINISH: the result it reaches, the phases and
the cipher calls on the way (10_state.md R51, R52; 70_reset_and_hazards.md R320). -/

namespace Sys2Proof.Machine

/-- A phase inside a command: not IDLE and not FINISH. -/
def Phase.inside (p : Phase) : Prop := p ≠ .idle ∧ ∀ r, p ≠ .finish r

/-- In `m` steps from `s` the engine reaches FINISH with `r`, inside the command until then, having made
`c` cipher calls. -/
structure Reaches (s : State) (m : Nat) (r : CmdResult) (c : Nat) : Prop where
  finish : (engineRun m s).phase = .finish r
  inside : ∀ k < m, (engineRun k s).phase.inside
  calls : cipherCalls m s = c

theorem inside_of_eq {p q : Phase} (h : p = q) (hq : q.inside) : p.inside := h ▸ hq

theorem inside_check : Phase.inside .check := ⟨by simp, by simp⟩

theorem inside_wrapStep : Phase.inside .wrapStep := ⟨by simp, by simp⟩

theorem inside_unwrapStep : Phase.inside .unwrapStep := ⟨by simp, by simp⟩

theorem inside_shortEnc : Phase.inside .shortEnc := ⟨by simp, by simp⟩

theorem inside_shortDec : Phase.inside .shortDec := ⟨by simp, by simp⟩

theorem inside_verify : Phase.inside .verify := ⟨by simp, by simp⟩

theorem engineRun_succ' (m : Nat) (s : State) : engineRun (m + 1) s = engineStep (engineRun m s) := by
  rw [engineRun_add]
  rfl

theorem cipherCalls_add (m k : Nat) (s : State) :
    cipherCalls (m + k) s = cipherCalls m s + cipherCalls k (engineRun m s) := by
  induction m generalizing s with
  | zero => simp [cipherCalls, engineRun]
  | succ m ih =>
    rw [Nat.succ_add, cipherCalls, ih, cipherCalls, engineRun]
    omega

theorem cipherCalls_of_all {m : Nat} {s : State}
    (h : ∀ k < m, (engineRun k s).phase.callsCipher = true) : cipherCalls m s = m := by
  induction m with
  | zero => rfl
  | succ m ih =>
    rw [cipherCalls_add, ih fun k hk => h k (by omega)]
    simp [cipherCalls, h m (by omega)]

theorem cipherCalls_of_idle {s : State} (h : s.phase = .idle) (k : Nat) : cipherCalls k s = 0 := by
  have hstep : engineStep s = s := by simp [engineStep, h]
  induction k with
  | zero => rfl
  | succ k ih => simp [cipherCalls, hstep, ih, h, Phase.callsCipher]

theorem reaches_here {s : State} {r : CmdResult} (h : s.phase = .finish r) : Reaches s 0 r 0 :=
  ⟨h, by simp, rfl⟩

theorem reaches_step {s : State} {m c : Nat} {r : CmdResult} {b : Bool} (hi : s.phase.inside)
    (hb : s.phase.callsCipher = b) (h : Reaches (engineStep s) m r c) :
    Reaches s (m + 1) r (b.toNat + c) := by
  refine ⟨h.finish, fun k hk => ?_, ?_⟩
  · cases k with
    | zero => exact hi
    | succ k => exact h.inside k (by omega)
  · rw [cipherCalls, h.calls, hb]
    cases b <;> rfl

theorem reaches_run {s : State} {a m c d : Nat} {r : CmdResult}
    (hi : ∀ k < a, (engineRun k s).phase.inside) (hc : cipherCalls a s = c)
    (h : Reaches (engineRun a s) m r d) : Reaches s (a + m) r (c + d) := by
  refine ⟨by rw [engineRun_add]; exact h.finish, fun k hk => ?_, by rw [cipherCalls_add, hc, h.calls]⟩
  by_cases hka : k < a
  · exact hi k hka
  · have := h.inside (k - a) (by omega)
    rwa [← engineRun_add, Nat.add_sub_of_le (by omega)] at this

/-- Inside a command the engine writes only the working registers and the sequencer. -/
theorem engineRun_sameButWork {s : State} {m : Nat} (h : ∀ k < m, (engineRun k s).phase.inside) :
    SameButWork s (engineRun m s) := by
  induction m with
  | zero => exact SameButWork.refl s
  | succ m ih =>
    rw [engineRun_succ']
    refine (ih fun k hk => h k (by omega)).trans ?_
    rcases engineStep_cases (engineRun m s) with ⟨h1, -⟩ | ⟨r, h1, -⟩ | ⟨-, -, h3, -⟩
    · exact absurd h1 (h m (by omega)).1
    · exact absurd h1 ((h m (by omega)).2 r)
    · exact h3

theorem SameButWork.snap_eq {s t : State} (h : SameButWork s t) : t.snap = s.snap := by rw [h]

theorem SameButWork.cfg_eq {s t : State} (h : SameButWork s t) : t.cfg = s.cfg := by rw [h]

theorem foldl_wrapStep_append (e : Block → Block) (n : Nat) (q : List Half) {l : List (Nat × Nat)}
    {a : Half} {p : List Half} (h : ∀ x ∈ l, x.2 - 1 < p.length) :
    l.foldl (fun w x => wrapStep e n x.1 x.2 w) ⟨a, p ++ q⟩ =
      ⟨(l.foldl (fun w x => wrapStep e n x.1 x.2 w) ⟨a, p⟩).a,
        (l.foldl (fun w x => wrapStep e n x.1 x.2 w) ⟨a, p⟩).r ++ q⟩ := by
  induction l generalizing a p with
  | nil => rfl
  | cons x l ih =>
    rw [List.foldl_cons, List.foldl_cons, wrapStep_append _ _ _ (h x List.mem_cons_self)]
    exact ih fun y hy => by
      rw [wrapStep_r_length]
      exact h y (List.mem_cons_of_mem _ hy)

theorem foldl_unwrapStep_append (d : Block → Block) (n : Nat) (q : List Half) {l : List (Nat × Nat)}
    {a : Half} {p : List Half} (h : ∀ x ∈ l, x.2 - 1 < p.length) :
    l.foldl (fun w x => unwrapStep d n x.1 x.2 w) ⟨a, p ++ q⟩ =
      ⟨(l.foldl (fun w x => unwrapStep d n x.1 x.2 w) ⟨a, p⟩).a,
        (l.foldl (fun w x => unwrapStep d n x.1 x.2 w) ⟨a, p⟩).r ++ q⟩ := by
  induction l generalizing a p with
  | nil => rfl
  | cons x l ih =>
    rw [List.foldl_cons, List.foldl_cons, unwrapStep_append _ _ _ (h x List.mem_cons_self)]
    exact ih fun y hy => by
      rw [unwrapStep_r_length]
      exact h y (List.mem_cons_of_mem _ hy)

/-- The engine's wrap rounds compute `W(K, IV, P)` in `6n` cipher calls (40_chaining_engine.md R144). -/
theorem reaches_wrapCore {s : State} {n : Nat} (iv : Half) {p : List Byte} (hn : s.snap.blocks = n)
    (h1 : 1 ≤ n) (hp : p.length = 8 * n) :
    Reaches (s.startWrap (p.length / 8) iv p) (6 * n)
      (.ok (wrapCore (encryptBlock s.snap.key) iv p)) (6 * n) := by
  have hpn : p.length / 8 = n := by omega
  obtain ⟨ha, hb⟩ := engineRun_wrapPhase (n := n) (6 * n - 1) (s := s.startWrap (p.length / 8) iv p)
    rfl hn (by simp) (by simpa) (by simp) (by simp; omega)
  rw [show 6 * n - 1 + 1 = 6 * n by omega] at hb
  refine ⟨?_, fun k hk => inside_of_eq (ha k (by omega)) inside_wrapStep, ?_⟩
  · have hlen : ((wrapOrder n).foldl (fun w x => wrapStep (encryptBlock s.snap.key) n x.1 x.2 w)
        ⟨iv, halves n p⟩).r.length = n := by
      rw [foldl_wrapStep_r_length]
      exact halves_length n p
    have hmem : ∀ x ∈ wrapOrder n, x.2 - 1 < (halves n p).length := fun x hx => by
      have := mem_wrapOrder hx
      rw [halves_length]
      omega
    rw [hb]
    simp only [State.startWrap_j, State.startWrap_i, State.startWrap_snap, State.startWrap_work,
      Nat.mul_zero, Nat.sub_self, Nat.add_zero, List.drop_zero, hpn, wrapCore, loadWrap, wrapRounds,
      Work.zero_r_drop, List.append_nil, unloadWrap]
    rw [foldl_wrapStep_append _ _ _ hmem, List.take_append_of_le_length hlen.ge]
  · exact cipherCalls_of_all fun k hk => by rw [ha k (by omega)]; rfl

/-- The engine's unwrap rounds compute `W⁻¹(K, C)` in `6n` cipher calls (40_chaining_engine.md R146). -/
theorem engineRun_unwrapCore {s : State} {n : Nat} {c : List Byte} (hn : s.snap.blocks = n)
    (h1 : 1 ≤ n) (hc : c.length / 8 - 1 = n) :
    (∀ k < 6 * n, (engineRun k (s.startUnwrap (c.length / 8 - 1) c)).phase = .unwrapStep) ∧
      (engineRun (6 * n) (s.startUnwrap (c.length / 8 - 1) c)).phase = .verify ∧
      unwrapCore (decryptBlock s.snap.key) c =
        (unloadUnwrap n (engineRun (6 * n) (s.startUnwrap (c.length / 8 - 1) c)).work,
          (engineRun (6 * n) (s.startUnwrap (c.length / 8 - 1) c)).work.a) := by
  obtain ⟨ha, hb, hw⟩ := engineRun_unwrapPhase (n := n) (6 * n - 1)
    (s := s.startUnwrap (c.length / 8 - 1) c) rfl hn (by simp; omega) (by simp; omega) (by simp)
    (by simp; omega)
  rw [show 6 * n - 1 + 1 = 6 * n by omega] at hb hw
  refine ⟨fun k hk => ha k (by omega), hb, ?_⟩
  have hmem : ∀ x ∈ unwrapOrder n, x.2 - 1 < (halves n (c.drop 8)).length := fun x hx => by
    rw [unwrapOrder_eq_reverse, List.mem_reverse] at hx
    have := mem_wrapOrder hx
    rw [halves_length]
    omega
  rw [hw]
  simp only [Nat.sub_self, List.drop_zero, State.startUnwrap_work, State.startUnwrap_snap, unwrapCore, hc,
    loadUnwrap, unwrapRounds, Work.zero_r_drop, List.append_nil, unloadUnwrap]
  rw [foldl_unwrapStep_append _ _ _ hmem,
    List.take_append_of_le_length (by rw [foldl_unwrapStep_r_length, halves_length])]

/-- The unwrap rounds followed by VERIFY reach FINISH with what VERIFY answers. -/
theorem reaches_unwrapCore {s : State} {n : Nat} {c : List Byte} {r : CmdResult}
    (hn : s.snap.blocks = n) (h1 : 1 ≤ n) (hc : c.length / 8 - 1 = n)
    (hr : ∀ t : State, t.phase = .verify → t.snap = s.snap → t.cfg = s.cfg →
      unwrapCore (decryptBlock s.snap.key) c = (unloadUnwrap n t.work, t.work.a) →
      (engineStep t).phase = .finish r) :
    Reaches (s.startUnwrap (c.length / 8 - 1) c) (6 * n + 1) r (6 * n) := by
  obtain ⟨ha, hb, hw⟩ := engineRun_unwrapCore hn h1 hc
  have hi : ∀ k < 6 * n, (engineRun k (s.startUnwrap (c.length / 8 - 1) c)).phase.inside :=
    fun k hk => inside_of_eq (ha k hk) inside_unwrapStep
  have hsame := engineRun_sameButWork hi
  have hfin := hr _ hb hsame.snap_eq hsame.cfg_eq hw
  have hcalls := cipherCalls_of_all (s := s.startUnwrap (c.length / 8 - 1) c) (m := 6 * n)
    fun k hk => by rw [ha k hk]; rfl
  exact reaches_run hi hcalls
    (reaches_step (b := false) (inside_of_eq hb inside_verify) (by rw [hb]; rfl) (reaches_here hfin))

theorem operandError_of_ok {f : Config → Nat → Bool} {c : Config} {q : Snapshot}
    (h1 : keySizeOk q.klen = true) (h2 : f c q.length = true) : operandError f c q = none := by
  simp [operandError, h1, h2]

theorem operandError_of_key {f : Config → Nat → Bool} {c : Config} {q : Snapshot}
    (h1 : keySizeOk q.klen = false) : operandError f c q = some .unsupportedKeySize := by
  simp [operandError, h1]

theorem operandError_of_length {f : Config → Nat → Bool} {c : Config} {q : Snapshot}
    (h1 : keySizeOk q.klen = true) (h2 : f c q.length = false) :
    operandError f c q = some .invalidInputLength := by
  simp [operandError, h1, h2]

theorem operandError_eq_none {f : Config → Nat → Bool} {c : Config} {q : Snapshot} :
    operandError f c q = none ↔ keySizeOk q.klen = true ∧ f c q.length = true := by
  unfold operandError
  cases keySizeOk q.klen <;> cases f c q.length <;> simp

/-- The cipher calls of a command whose operands pass the checks (70_reset_and_hazards.md R320). -/
def callCount (i : Instr) (l : Nat) : Nat :=
  if (i = .wrapPad ∧ l ≤ 8) ∨ (i = .unwrapPad ∧ l = 16) then 1 else 6 * blockCount i l

/-- What a run from CHECK does with the operands' check: on an error it reaches FINISH with it at once,
without a cipher call. -/
theorem reaches_operandError {s : State} {f : Config → Nat → Bool} {start : State → State} {e : ErrCode}
    (hp : s.phase = .check) (hs : engineStep s = s.checkOperands f start)
    (he : operandError f s.cfg s.snap = some e) : Reaches s 1 (.err e) 0 := by
  refine reaches_step (b := false) (inside_of_eq hp inside_check) (by rw [hp]; rfl) (reaches_here ?_)
  rw [hs, State.checkOperands, he]
  rfl

theorem reaches_start {s : State} {f : Config → Nat → Bool} {start : State → State} {m c : Nat}
    {r : CmdResult} (hp : s.phase = .check) (hs : engineStep s = s.checkOperands f start)
    (he : operandError f s.cfg s.snap = none) (h : Reaches (start s) m r c) : Reaches s (m + 1) r c := by
  have := reaches_step (s := s) (b := false) (m := m) (r := r) (c := c) (inside_of_eq hp inside_check)
    (by rw [hp]; rfl) (by rwa [hs, State.checkOperands, he])
  simpa using this

theorem reaches_wrap {s : State} (hd : decode s.snap.word = .command .wrap)
    (he : operandError wrapLengthOk s.cfg s.snap = none) :
    ∃ m, m ≤ 6 * blockCount .wrap s.snap.length + 1 ∧
      Reaches s.startWrapCommand m (commandResult .wrap s.cfg s.snap)
        (callCount .wrap s.snap.length) := by
  have hl := (operandError_eq_none.mp he).2
  simp only [wrapLengthOk, minBlocks, Bool.and_eq_true, decide_eq_true_eq] at hl
  have hn1 : 1 ≤ s.snap.length / 8 := by
    have := of_decide_eq_true hl.1.2
    split at this <;> omega
  have hr := reaches_wrapCore (s := s) (n := s.snap.length / 8) ivKw (p := s.snap.input)
    (by rw [Snapshot.blocks, hd]; rfl) hn1 (by rw [Snapshot.input_length]; omega)
  refine ⟨_, Nat.le_succ _, ?_⟩
  rw [commandResult, wrapResult, he, callCount, if_neg (by simp)]
  exact hr

theorem reaches_unwrap {s : State} (hd : decode s.snap.word = .command .unwrap)
    (he : operandError unwrapLengthOk s.cfg s.snap = none) :
    ∃ m, m ≤ 6 * blockCount .unwrap s.snap.length + 1 ∧
      Reaches s.startUnwrapCommand m (commandResult .unwrap s.cfg s.snap)
        (callCount .unwrap s.snap.length) := by
  have hl := (operandError_eq_none.mp he).2
  simp only [unwrapLengthOk, minBlocks, Bool.and_eq_true, decide_eq_true_eq] at hl
  have hn1 : 1 ≤ s.snap.length / 8 - 1 := by
    have := of_decide_eq_true hl.1.2
    split at this <;> omega
  have hblk : s.snap.blocks = s.snap.length / 8 - 1 := by rw [Snapshot.blocks, hd]; rfl
  refine ⟨6 * (s.snap.length / 8 - 1) + 1, le_rfl, ?_⟩
  rw [callCount, if_neg (by simp)]
  refine reaches_unwrapCore (n := s.snap.length / 8 - 1) hblk hn1 (by rw [Snapshot.input_length]) fun t hp hsn hcf hw => ?_
  simp only [engineStep, hp, State.verifyPhase, hsn, hblk, hd, State.toFinish_phase, commandResult,
    unwrapResult, he, hw]

theorem reaches_wrapPad {s : State} (hd : decode s.snap.word = .command .wrapPad)
    (he : operandError wrapPadLengthOk s.cfg s.snap = none) :
    ∃ m, m ≤ 6 * blockCount .wrapPad s.snap.length + 1 ∧
      Reaches s.startWrapPadCommand m (commandResult .wrapPad s.cfg s.snap)
        (callCount .wrapPad s.snap.length) := by
  have hl := (operandError_eq_none.mp he).2
  simp only [wrapPadLengthOk, Bool.and_eq_true, decide_eq_true_eq] at hl
  have hc8 := le_ceil8 s.snap.length
  have hlen := padPlaintext_length s.snap.input
  rw [Snapshot.input_length] at hlen
  rw [State.startWrapPadCommand, commandResult, wrapPadResult, he]
  simp only [padWrapCore, callCount]
  by_cases h8 : (padPlaintext s.snap.input).length = 8
  · rw [if_pos h8, if_pos h8, if_pos (.inl ⟨trivial, by omega⟩)]
    refine ⟨1, by omega, ?_⟩
    have hh := halves_getD 1 (padPlaintext s.snap.input) 0 (by omega)
    rw [slice, List.take_of_length_le (by omega), Nat.mul_zero, List.drop_zero] at hh
    refine reaches_step (m := 0) (c := 0) (b := true) inside_shortEnc rfl (reaches_here ?_)
    simp only [engineStep, State.startShortEnc_phase, State.shortEncPhase, State.toFinish_phase,
      State.startShortEnc_snap, State.startShortEnc_work, shortEncrypt, loadWrap, Work.getR, Nat.sub_self]
    rw [List.getD_append _ _ _ _ (by simp), hh]
  · rw [if_neg h8, if_neg h8, if_neg (by simp; unfold ceil8 at *; omega)]
    exact ⟨_, Nat.le_succ _, reaches_wrapCore (n := ceil8 s.snap.length) _
      (by rw [Snapshot.blocks, hd]; rfl) (by omega) hlen⟩

theorem reaches_unwrapPad {s : State} (hd : decode s.snap.word = .command .unwrapPad)
    (he : operandError unwrapPadLengthOk s.cfg s.snap = none) :
    ∃ m, m ≤ 6 * blockCount .unwrapPad s.snap.length + 1 ∧
      Reaches s.startUnwrapPadCommand m (commandResult .unwrapPad s.cfg s.snap)
        (callCount .unwrapPad s.snap.length) := by
  have hl := (operandError_eq_none.mp he).2
  simp only [unwrapPadLengthOk, Bool.and_eq_true, decide_eq_true_eq] at hl
  have hblk : s.snap.blocks = s.snap.length / 8 - 1 := by rw [Snapshot.blocks, hd]; rfl
  rw [State.startUnwrapPadCommand, commandResult, unwrapPadResult, he]
  simp only [padUnwrapCore, padDecode, callCount]
  by_cases h16 : s.snap.input.length = 16
  · have hl16 : s.snap.length = 16 := by rwa [Snapshot.input_length] at h16
    rw [if_pos h16, if_pos h16, if_pos (.inr ⟨trivial, hl16⟩)]
    refine ⟨2, by simp [blockCount, hl16], ?_⟩
    refine reaches_step (m := 1) (c := 0) (b := true) inside_shortDec rfl
      (reaches_step (m := 0) (c := 0) (b := false) inside_verify rfl (reaches_here ?_))
    have hb1 : s.snap.blocks = 1 := by rw [hblk, hl16]
    simp only [engineStep, State.startShortDec_phase, State.shortDecPhase, State.startShortDec_snap,
      State.startShortDec_work, State.startShortDec_cfg, State.verifyPhase, hd, State.toFinish_phase, hb1,
      unloadUnwrap, joinBytes]
    simp
  · rw [if_neg h16, if_neg h16, if_neg (by rw [Snapshot.input_length] at h16; simp [h16])]
    refine ⟨6 * (s.snap.length / 8 - 1) + 1, le_rfl, ?_⟩
    refine reaches_unwrapCore (n := s.snap.length / 8 - 1) hblk (by rw [Snapshot.input_length] at h16; omega)
      (by rw [Snapshot.input_length]) fun t hp hsn hcf hw => ?_
    simp only [engineStep, hp, State.verifyPhase, hsn, hcf, hblk, hd, State.toFinish_phase, hw]

theorem blockCount_le_nMax {c : Config} {i : Instr} {l : Nat} (h : lengthOk c i l = true) :
    blockCount i l ≤ c.nMax := by
  cases i <;>
    simp only [lengthOk, wrapLengthOk, unwrapLengthOk, wrapPadLengthOk, unwrapPadLengthOk,
      Bool.and_eq_true, decide_eq_true_eq] at h <;>
    simp only [blockCount] <;> omega

/-- The run of an accepted command from CHECK: it reaches FINISH with the result of `Execute`, inside the
command until then, within `6 * N_MAX + 2` steps; it makes the fixed number of cipher calls, or none where
a check of steps 1 to 3 fails (42_commands.md R224, R228). -/
theorem reaches_execute {s : State} (hp : s.phase = .check) :
    ∃ m c, m ≤ 6 * s.cfg.nMax + 2 ∧ Reaches s m (execute s.cfg s.snap) c ∧
      (c = 0 ∨ ∃ i, s.checked i ∧ i ≠ .nop) ∧
      ∀ i, i ≠ .nop → s.checked i → c = callCount i s.snap.length := by
  have early : ∀ e, Reaches s 1 (.err e) 0 → execute s.cfg s.snap = .err e →
      (∀ i, i ≠ .nop → ¬ s.checked i) → ∃ m c, m ≤ 6 * s.cfg.nMax + 2 ∧
        Reaches s m (execute s.cfg s.snap) c ∧ (c = 0 ∨ ∃ i, s.checked i ∧ i ≠ .nop) ∧
        ∀ i, i ≠ .nop → s.checked i → c = callCount i s.snap.length :=
    fun e hr he hn => ⟨1, 0, by omega, he ▸ hr, .inl rfl, fun i hi hc => absurd hc (hn i hi)⟩
  have command : ∀ (i : Instr) (f : Config → Nat → Bool) (start : State → State), i ≠ .nop →
      decode s.snap.word = .command i → engineStep s = s.checkOperands f start →
      f s.cfg = lengthOk s.cfg i →
      (∀ e, operandError f s.cfg s.snap = some e → commandResult i s.cfg s.snap = .err e) →
      (operandError f s.cfg s.snap = none → ∃ m, m ≤ 6 * blockCount i s.snap.length + 1 ∧
        Reaches (start s) m (commandResult i s.cfg s.snap) (callCount i s.snap.length)) →
      ∃ m c, m ≤ 6 * s.cfg.nMax + 2 ∧ Reaches s m (execute s.cfg s.snap) c ∧
        (c = 0 ∨ ∃ i, s.checked i ∧ i ≠ .nop) ∧
        ∀ i, i ≠ .nop → s.checked i → c = callCount i s.snap.length := by
    intro i f start hi hd hs hf herr hrun
    have hex := execute_of_decode (c := s.cfg) hd
    have honly : ∀ k, s.running k → k = i := fun k hk => by
      rw [State.running, hd] at hk
      cases hk
      rfl
    cases he : operandError f s.cfg s.snap with
    | some e =>
      refine early e (reaches_operandError hp hs he) (hex.trans (herr e he)) fun k _ hc => ?_
      obtain rfl := honly k hc.1
      rw [operandError_eq_none.mpr ⟨hc.2.1, by rw [hf]; exact hc.2.2⟩] at he
      cases he
    | none =>
      obtain ⟨m, hm, hr⟩ := hrun he
      obtain ⟨hk, hl⟩ := operandError_eq_none.mp he
      rw [hf] at hl
      have hn := blockCount_le_nMax hl
      refine ⟨m + 1, callCount i s.snap.length, by omega, hex ▸ reaches_start hp hs he hr,
        .inr ⟨i, ⟨hd, hk, hl⟩, hi⟩, fun k _ hc => ?_⟩
      rw [honly k hc.1]
  have hstep : engineStep s = s.check := by rw [engineStep, hp]
  cases hd : decode s.snap.word with
  | illegal w =>
    have hs : engineStep s = s.toFinish (.err .illegalCommand) := by rw [hstep, State.check, hd]
    refine early .illegalCommand ?_ (execute_of_illegal hd) fun i _ hc => ?_
    · exact reaches_step (b := false) (inside_of_eq hp inside_check) (by rw [hp]; rfl)
        (reaches_here (by rw [hs]; rfl))
    · have := hc.1
      rw [State.running, hd] at this
      cases this
  | command i =>
    cases i with
    | nop =>
      have hs : engineStep s = s.toFinish (.err .illegalCommand) := by rw [hstep, State.check, hd]
      refine early .illegalCommand ?_ (execute_of_decode hd) fun i hi hc => ?_
      · exact reaches_step (b := false) (inside_of_eq hp inside_check) (by rw [hp]; rfl)
          (reaches_here (by rw [hs]; rfl))
      · have := hc.1
        rw [State.running, hd] at this
        cases this
        exact hi rfl
    | wrap =>
      exact command .wrap wrapLengthOk _ (by simp) hd (by rw [hstep, State.check, hd]) rfl
        (fun e he => by rw [commandResult, wrapResult, he]) (reaches_wrap hd)
    | unwrap =>
      exact command .unwrap unwrapLengthOk _ (by simp) hd (by rw [hstep, State.check, hd]) rfl
        (fun e he => by rw [commandResult, unwrapResult, he]) (reaches_unwrap hd)
    | wrapPad =>
      exact command .wrapPad wrapPadLengthOk _ (by simp) hd (by rw [hstep, State.check, hd]) rfl
        (fun e he => by rw [commandResult, wrapPadResult, he]) (reaches_wrapPad hd)
    | unwrapPad =>
      exact command .unwrapPad unwrapPadLengthOk _ (by simp) hd (by rw [hstep, State.check, hd]) rfl
        (fun e he => by rw [commandResult, unwrapPadResult, he]) (reaches_unwrapPad hd)

/-- The engine makes no cipher call after it has reached FINISH. -/
theorem Reaches.calls_after {s : State} {m c : Nat} {r : CmdResult} (h : Reaches s m r c) {k : Nat}
    (hk : m ≤ k) : cipherCalls k s = c := by
  obtain ⟨d, rfl⟩ := Nat.exists_eq_add_of_le hk
  rw [cipherCalls_add, h.calls]
  cases d with
  | zero => rfl
  | succ d =>
    have hidle : (engineStep (engineRun m s)).phase = .idle := by
      rw [engineStep, h.finish]
      exact State.finish_phase r _
    rw [cipherCalls, cipherCalls_of_idle hidle, h.finish]
    rfl

/-- FINISH reads only what the engine leaves alone inside a command: run from CHECK, it ends in the state
FINISH makes of the accepted one. -/
theorem engineRun_of_reaches {s : State} {m c : Nat} {r : CmdResult} (h : Reaches s m r c) :
    engineRun (m + 1) s = s.finish r := by
  have hsame := engineRun_sameButWork h.inside
  have hfin := h.finish
  rw [engineRun_succ']
  generalize engineRun m s = t at hsame hfin
  rw [engineStep, hfin, hsame]
  cases r <;> rfl

end Sys2Proof.Machine
end

