-- ==== Sys2Proof/Laws/Step.lean ====
section
/-! SUPPORT. Everything one step of the machine can do, said once. -/

namespace Sys2Proof.Machine

/-- An access is answered by a record, or stops the host's program. -/
theorem answer_next {r : BusResponse} {a : Response} {s t : State} (h : s.answer r a = .next t) :
    t = s.record a := by
  unfold State.answer at h
  split at h <;> simp_all

/-- Everything an access turn can do: the host reads or waits and only its own fields change, or it
writes. -/
theorem accessTurn_cases {s t : State} (h : accessTurn s = .next t) :
    (∃ hs rs, t = { s with host := hs, responses := rs }) ∨
      ∃ w off v ops, s.host = .write w off v :: ops ∧
        t = ((busWrite { s with host := ops } w off v).2).record
          (.write (busWrite { s with host := ops } w off v).1) := by
  unfold accessTurn at h
  split at h
  · cases h
    exact .inl ⟨s.host, s.responses, rfl⟩
  · have ht := answer_next h
    exact .inl ⟨_, _, ht⟩
  · rename_i hs
    exact .inr ⟨_, _, _, _, hs, answer_next h⟩
  · unfold State.hostPoll at h
    simp only at h
    split at h
    · have ht := answer_next h
      exact .inl ⟨_, _, ht⟩
    · have ht := answer_next h
      exact .inl ⟨_, _, ht⟩
  · cases h
    unfold State.hostWait
    split
    · exact .inl ⟨_, _, rfl⟩
    · exact .inl ⟨s.host, s.responses, rfl⟩

/-- The offset a target stands at, and its range (10_state.md R33). -/
theorem busTarget_some {c : Config} {w : Width} {off : Nat} {r : HostReg} (h : busTarget c w off = some r) :
    w = .w32 ∧ off = regOffset r ∧ (∀ k, r = .kek k → k < 8) ∧
      ∀ k, r = .buf k → 4 * k + 4 ≤ c.bufBytes := by
  have hb8 : c.bufBytes % 4 = 0 := by
    unfold Config.bufBytes
    omega
  unfold busTarget at h
  split at h
  · unfold decodeOffset at h
    repeat' split at h
    all_goals cases h
    all_goals
      refine ⟨rfl, ?_, ?_, ?_⟩
      · simp only [regOffset]
        omega
      · intro k hk
        cases hk
        try omega
      · intro k hk
        cases hk
        try omega
  all_goals cases h

theorem decodeOffset_unmapped {c : Config} {off : Nat} (h : off % 4 ≠ 0 ∨ off = 0x01C ∨
    (0x040 ≤ off ∧ off ≤ 0x0FF) ∨ 0x100 + c.bufBytes ≤ off) : decodeOffset c off = none := by
  unfold decodeOffset
  by_cases h4 : off % 4 ≠ 0
  · rw [if_pos h4]
  · iterate 10 rw [if_neg (by omega)]

theorem decodeOffset_kek {c : Config} {w : Nat} (h : w < 8) :
    decodeOffset c (0x020 + 4 * w) = some (.kek w) := by
  unfold decodeOffset
  iterate 8 rw [if_neg (by omega)]
  rw [if_pos (by omega)]
  congr 2
  omega

theorem decodeOffset_buf {c : Config} {k : Nat} (h : 4 * k < c.bufBytes) :
    decodeOffset c (0x100 + 4 * k) = some (.buf k) := by
  unfold decodeOffset
  iterate 9 rw [if_neg (by omega)]
  rw [if_pos (by omega)]
  congr 2
  omega

/-- Everything a write can do: nothing, by the gate or a bus error or a read-only register, or the
effect of R86. -/
theorem busWrite_cases (s : State) (w : Width) (off : Nat) (v : Word) :
    (busWrite s w off v).2 = s ∨
      (busWrite s w off v).2 = { s with ie := v.getLsbD 0 } ∨
      (w = .w32 ∧ off = 0x008 ∧ (busWrite s w off v).2 = { s with status := s.status.writeW1C v }) ∨
      (s.status.busy = false ∧
        ((w = .w32 ∧ off = 0x004 ∧ (busWrite s w off v).2 = s.accept v) ∨
          (busWrite s w off v).2 = { s with kekLen := v.extractLsb' 0 8 } ∨
          (busWrite s w off v).2 = { s with dataLen := v } ∨
          (∃ k, k < 8 ∧ (busWrite s w off v).2 = { s with kekb := s.kekb.writeWord k v }) ∨
          (∃ k, 4 * k + 4 ≤ s.cfg.bufBytes ∧
            (busWrite s w off v).2 = { s with buf := s.buf.writeWord k v }))) := by
  unfold busWrite
  cases ht : busTarget s.cfg w off with
  | none => exact .inl rfl
  | some r =>
    obtain ⟨hw, hoff, hkek, hbuf⟩ := busTarget_some ht
    cases hg : s.status.busy with
    | true => cases r <;> simp [State.writeReg, hg, hw, hoff, regOffset]
    | false =>
      cases r with
      | kek k =>
        refine .inr (.inr (.inr ⟨rfl, .inr (.inr (.inr (.inl ⟨k, hkek k rfl, ?_⟩)))⟩))
        simp [State.writeReg, hg]
      | buf k =>
        refine .inr (.inr (.inr ⟨rfl, .inr (.inr (.inr (.inr ⟨k, hbuf k rfl, ?_⟩)))⟩))
        simp [State.writeReg, hg]
      | _ => simp [State.writeReg, hg, hw, hoff, regOffset]

/-- A turn that runs a command word in one step, or an access turn. -/
theorem commandTurn_cases {s t : State} (h : commandTurn s = .next t) :
    accessTurn s = .next t ∨
      ∃ v ops, s.host = .write .w32 (regOffset .cmd) v :: ops ∧
        runWord v (State.record (.write .okay) { s with host := ops }) = .next t := by
  unfold commandTurn at h
  split at h
  · split at h
    · rename_i w off v ops hs hc
      refine .inr ⟨v, ops, ?_, h⟩
      rw [hs]
      unfold isCommandWrite at hc
      split at hc
      · rw [beq_iff_eq.mp hc]
      all_goals cases hc
    · exact .inl h
  all_goals exact .inl h

/-- Everything one step of the machine can do: the engine moves, the host performs an access, a command
word is run in one step, or the block is reset. -/
theorem step_cases {s t : State} (h : step s = .next t) :
    ∃ ts, (s.turns = [] ∧ ts = [] ∨ ∃ x, s.turns = x :: ts) ∧
      (t = engineStep { s with turns := ts } ∨
        accessTurn { s with turns := ts } = .next t ∨
        (∃ v ops, s.host = .write .w32 (regOffset .cmd) v :: ops ∧
          runWord v (State.record (.write .okay) { s with turns := ts, host := ops }) = .next t) ∨
        (s.turns = .reset :: ts ∧ t = State.resetBlock { s with turns := ts })) := by
  unfold step at h
  split at h
  · rename_i hs
    have hself : ({ s with turns := [] } : State) = s := by rw [← hs]
    refine ⟨[], .inl ⟨hs, rfl⟩, ?_⟩
    rw [hself]
    unfold freeTurn at h
    split at h
    · rcases commandTurn_cases h with h | ⟨v, ops, hh, h⟩
      · exact .inr (.inl h)
      · refine .inr (.inr (.inl ⟨v, ops, hh, ?_⟩))
        rwa [show ({ s with turns := [], host := ops } : State) = { s with host := ops } from by rw [← hs]]
    all_goals (cases h; exact .inl rfl)
  · rename_i x ts hs
    refine ⟨ts, .inr ⟨x, hs⟩, ?_⟩
    cases x with
    | engine =>
      cases h
      exact .inl rfl
    | access => exact .inr (.inl h)
    | command =>
      rcases commandTurn_cases h with h | ⟨v, ops, hh, h⟩
      · exact .inr (.inl h)
      · exact .inr (.inr (.inl ⟨v, ops, hh, h⟩))
    | reset =>
      cases h
      exact .inr (.inr (.inr ⟨hs, rfl⟩))

end Sys2Proof.Machine
end

