-- ==== Sys2Proof/Tests/Slice0.lean ====
section
/-! SUPPORT. The model's own tests: ill-formed terms, words written out, the spec's worked examples
(95_test_vectors.md), one-step tests, and a witness for the hypotheses of every obligation. -/

namespace Sys2Proof.Machine

/-! ## Well-formedness -/

theorem test_wf_rejects_small_nMax : Config.wf { Config.example8 with nMax := 1 } = false := by decide

theorem test_wf_rejects_large_nMax : Config.wf { Config.example8 with nMax := 2 ^ 24 } = false := by
  decide

theorem test_wf_rejects_unaligned_base : Config.wf { Config.example8 with base := 0x1002 } = false := by
  decide

theorem test_wf_rejects_ninth_key_word : HostReg.wf Config.example8 (.kek 8) = false := by decide

theorem test_wf_rejects_word_past_buffer : HostReg.wf Config.example8 (.buf 18) = false := by decide

theorem test_wf_rejects_15_byte_key : kwKeyWf (zeros 15) = false := by decide

theorem test_wf_rejects_long_data : kwDataWf Config.example8 (zeros 73) = false := by decide

/-- No command is ill formed (30_encoding.md R112): the ill-formed words are ILLEGAL, and the decoder
refuses them. -/
theorem test_decode_refuses_ill_formed :
    decodeTableWord 32 0x00000005 = none ∧ decodeTableWord 32 0x00000010 = none ∧
      decodeTableWord 40 0x00000001 = none ∧ decodeTableWord 32 0x100000001 = none := by decide

/-! ## Decoding, words written out from 30_encoding.md R111 and 95_test_vectors.md T22 -/

theorem test_decode_nop : decode 0b0000000000000000000000000000_0000 = .command .nop := by decide

theorem test_decode_wrap : decode 0b0000000000000000000000000000_0001 = .command .wrap := by decide

theorem test_decode_unwrap : decode 0b0000000000000000000000000000_0010 = .command .unwrap := by decide

theorem test_decode_wrapPad : decode 0b0000000000000000000000000000_0011 = .command .wrapPad := by decide

theorem test_decode_unwrapPad : decode 0b0000000000000000000000000000_0100 = .command .unwrapPad := by
  decide

theorem test_decode_reserved_code :
    decode 0b0000000000000000000000000000_0101 = .illegal .reservedCode ∧
      decode 0b0000000000000000000000000000_1111 = .illegal .reservedCode := by decide

theorem test_decode_reserved_bits :
    decode 0b0000000000000000000000000001_0000 = .illegal .reservedBits ∧
      decode 0b0000000000000000000000000001_0001 = .illegal .reservedBits ∧
      decode 0b1000000000000000000000000000_0001 = .illegal .reservedBits ∧
      decode 0xFFFFFFFF = .illegal .reservedBits := by decide

/-! ## The chaining engine and the padding, on the spec's traces

The cipher of these tests is a table of the calls of 95_test_vectors.md T1, which T2 makes backwards. -/

/-- The calls of T1: input block, output block. -/
def traceCalls : List (Block × Block) :=
  [(0xA6A6A6A6A6A6A6A60011223344556677, 0xF4740052E82A225174CE86FBD7B805E7),
   (0xF4740052E82A22508899AABBCCDDEEFF, 0x06BA4EBDE7768D0BD132EE38147E76F8),
   (0x06BA4EBDE7768D0974CE86FBD7B805E7, 0xFC967627BE937208FE6E8D679C5D3460),
   (0xFC967627BE93720BD132EE38147E76F8, 0x5896EA9028EE203B07B2BD973E36A6FC),
   (0x5896EA9028EE203FFE6E8D679C5D3460, 0x93AEA71B258D90C325F5A3ADC2195401),
   (0x93AEA71B258D90C607B2BD973E36A6FC, 0xE3EE986344D878F7F14863BB1E9CA90A),
   (0xE3EE986344D878F125F5A3ADC2195401, 0x2BFC21B2C20E4006B556D35ED8CEF052),
   (0x2BFC21B2C20E4001F14863BB1E9CA90A, 0x4BE8CE99C0A43A7D64BAE5818D0570BB),
   (0x4BE8CE99C0A43A75B556D35ED8CEF052, 0xEBE1CE91067024F3BE114B343EB00981),
   (0xEBE1CE91067024FA64BAE5818D0570BB, 0x5A9C7B1F5B1C3B464FD3D2B7D74FBB42),
   (0x5A9C7B1F5B1C3B4CBE114B343EB00981, 0x93B71967EED41FFCAEF34BD8FB5A7B82),
   (0x93B71967EED41FF74FD3D2B7D74FBB42, 0x1FA68B0A8112B44B9D3E862371D2CFE5)]

def traceEncrypt (x : Block) : Block := ((traceCalls.find? (·.1 == x)).map (·.2)).getD 0

def traceDecrypt (y : Block) : Block := ((traceCalls.find? (·.2 == y)).map (·.1)).getD 0

/-- `P16`. -/
def p16 : List Byte :=
  [0x00, 0x11, 0x22, 0x33, 0x44, 0x55, 0x66, 0x77, 0x88, 0x99, 0xAA, 0xBB, 0xCC, 0xDD, 0xEE, 0xFF]

/-- The output of S1. -/
def s1Output : List Byte :=
  [0x1F, 0xA6, 0x8B, 0x0A, 0x81, 0x12, 0xB4, 0x47, 0xAE, 0xF3, 0x4B, 0xD8, 0xFB, 0x5A, 0x7B, 0x82,
    0x9D, 0x3E, 0x86, 0x23, 0x71, 0xD2, 0xCF, 0xE5]

/-- S1 by T1. -/
theorem test_wrapCore_S1 : wrapCore traceEncrypt ivKw p16 = s1Output := by decide +kernel

/-- S1 backwards, by T2. -/
theorem test_unwrapCore_S1 : unwrapCore traceDecrypt s1Output = (p16, 0xA6A6A6A6A6A6A6A6) := by
  decide +kernel

/-- Step 1 of T1: the counter is XORed after the call. -/
theorem test_wrapStep_T1 :
    wrapStep traceEncrypt 2 0 1 ⟨0xA6A6A6A6A6A6A6A6, [0x0011223344556677, 0x8899AABBCCDDEEFF]⟩ =
      ⟨0xF4740052E82A2250, [0x74CE86FBD7B805E7, 0x8899AABBCCDDEEFF]⟩ := by decide

/-- Step 1 of T2: the counter is XORed before the call. -/
theorem test_unwrapStep_T2 :
    unwrapStep traceDecrypt 2 5 2 ⟨0x1FA68B0A8112B447, [0xAEF34BD8FB5A7B82, 0x9D3E862371D2CFE5]⟩ =
      ⟨0x93B71967EED41FF7, [0xAEF34BD8FB5A7B82, 0x4FD3D2B7D74FBB42]⟩ := by decide

/-- The block S2 encrypts, and its one call: no counter XOR. -/
theorem test_padWrapCore_S2 :
    padWrapCore (fun x => if x = 0xA65959A600000007466F725061736900
      then 0xAFBEB0F07DFBF5419200F2CCB50BB24F else 0) [0x46, 0x6F, 0x72, 0x50, 0x61, 0x73, 0x69] =
      [0xAF, 0xBE, 0xB0, 0xF0, 0x7D, 0xFB, 0xF5, 0x41, 0x92, 0x00, 0xF2, 0xCC, 0xB5, 0x0B, 0xB2, 0x4F] := by
  decide

theorem test_padUnwrapCore_S2 :
    padUnwrapCore false (fun y => if y = 0xAFBEB0F07DFBF5419200F2CCB50BB24F
      then 0xA65959A600000007466F725061736900 else 0)
      [0xAF, 0xBE, 0xB0, 0xF0, 0x7D, 0xFB, 0xF5, 0x41, 0x92, 0x00, 0xF2, 0xCC, 0xB5, 0x0B, 0xB2, 0x4F] =
      .ok [0x46, 0x6F, 0x72, 0x50, 0x61, 0x73, 0x69] := by decide

/-- T10: the AIV is a big-endian byte count. -/
theorem test_aiv_T10 : aiv 7 = 0xA65959A600000007 ∧ aiv 20 = 0xA65959A600000014 ∧
    (padPlaintext (zeros 9)).length = 16 ∧ (padPlaintext (zeros 16)).length = 16 := by decide

/-- T14, the short path: MLI 9 and 0 are out of range, 8 is in, and the prefix is checked first. -/
theorem test_checkPadded_T14_short :
    checkPadded false 0xA65959A600000009 (p16.take 8) = .err .lengthFieldInconsistent ∧
      checkPadded false 0xA65959A600000000 (p16.take 8) = .err .lengthFieldInconsistent ∧
      checkPadded false 0xA65959A600000008 (p16.take 8) = .ok (p16.take 8) ∧
      checkPadded false 0xA65959A700000008 (p16.take 8) = .err .integrityCheckFailed := by decide

/-- T14, the long path with `n = 2`. -/
theorem test_checkPadded_T14_long :
    checkPadded false 0xA65959A600000008 p16 = .err .lengthFieldInconsistent ∧
      checkPadded false 0xA65959A600000011 p16 = .err .lengthFieldInconsistent ∧
      checkPadded false 0xA65959A600000010 p16 = .ok p16 ∧
      checkPadded false 0xA65959A600000009 p16 = .ok (p16.take 9) := by decide

/-- T15: the pad check exists only under PAD_ZERO_CHECK. -/
theorem test_checkPadded_T15 :
    checkPadded false 0xA65959A600000007 [0x00, 0x11, 0x22, 0x33, 0x44, 0x55, 0x66, 0xFF] =
        .ok [0x00, 0x11, 0x22, 0x33, 0x44, 0x55, 0x66] ∧
      checkPadded true 0xA65959A600000007 [0x00, 0x11, 0x22, 0x33, 0x44, 0x55, 0x66, 0xFF] =
        .err .integrityCheckFailed := by decide

/-! ## One step of each command -/

/-- The machine after reset with a key length, an input length, an all-zero key and a buffer. -/
def loaded (klen : BitVec 8) (len : Word) (buf : Memory) : State :=
  { State.reset with kekLen := klen, dataLen := len, buf := buf }

/-- The state an outcome goes to. -/
def nextOf : Host.Outcome State Fault Refusal → Option State
  | .next t => some t
  | .fault _ => none
  | .refused _ => none

/-- STATUS after an outcome, as the host reads it. -/
def statusAfter (o : Host.Outcome State Fault Refusal) : Option Word := (nextOf o).map (·.status.word)

theorem test_exec_nop : exec .nop (loaded 16 16 [(3, 7)]) = .next (loaded 16 16 [(3, 7)]) := rfl

/-- S4 and T21. -/
theorem test_exec_wrap_key_first : statusAfter (exec .wrap (loaded 15 3 [(3, 7)])) = some 0x00000012 := by
  decide

/-- T20: `L = 16` and `L = 64` succeed with `OUT_LEN` 24 and 72. -/
theorem test_exec_wrap_out_len :
    (nextOf (exec .wrap (loaded 16 16 []))).map (·.outLen) = some 24 ∧
      (nextOf (exec .wrap (loaded 16 64 []))).map (·.outLen) = some 72 := ⟨rfl, rfl⟩

/-- T20: `n = 1` is refused. -/
theorem test_exec_unwrap_single_block : statusAfter (exec .unwrap (loaded 16 16 [])) = some 0x00000022 := by
  decide

/-- A failure clears the buffer and OUT_LEN (T24). -/
theorem test_exec_unwrap_clears :
    (nextOf (exec .unwrap { loaded 33 24 [(3, 7)] with outLen := 5, kekb := [(0, 1)] })).map
      (fun t => (t.status.word, t.buf, t.outLen, t.kekb)) = some (0x00000012, [], 0, []) := by decide

/-- T20: `L = 65` needs nine blocks. -/
theorem test_exec_wrapPad_too_long : statusAfter (exec .wrapPad (loaded 16 65 [])) = some 0x00000022 := by
  decide

/-- T20: `L = 1` gives 16 bytes. -/
theorem test_exec_wrapPad_short : (nextOf (exec .wrapPad (loaded 16 1 []))).map (·.outLen) = some 16 := rfl

/-- T20: `L = 20` is not a multiple of 8, `L = 8` is too short. -/
theorem test_exec_unwrapPad_lengths :
    statusAfter (exec .unwrapPad (loaded 16 20 [])) = some 0x00000022 ∧
      statusAfter (exec .unwrapPad (loaded 16 8 [])) = some 0x00000022 := by decide

theorem test_exec_unwrapPad_key : statusAfter (exec .unwrapPad (loaded 0 16 [])) = some 0x00000012 := by
  decide

/-- T22: an ILLEGAL word, whatever the key length is (T21). -/
theorem test_runWord_illegal :
    statusAfter (runWord 0x00000005 (loaded 15 3 [])) = some 0x00000052 ∧
      statusAfter (runWord 0x00000011 (loaded 16 16 [])) = some 0x00000052 := by decide

/-- The fetch the host of this package uses runs the word as the first step after reset. -/
theorem test_withFetchWord : statusAfter (step (State.reset.withFetchWord 32 1)) = some 0x00000012 := by
  decide

/-! ## The bus (95_test_vectors.md T30) and reset (T31) -/

theorem test_read_caps : busRead State.reset .w32 0x018 = (.okay, 0x00000008) := by decide

theorem test_bus_boundaries :
    busRead (loaded 0 0 [(71, 9)]) .w32 0x144 = (.okay, 0x00000009) ∧
      busRead State.reset .w32 0x148 = (.busError, 0) ∧ busRead State.reset .w32 0x03C = (.okay, 0) ∧
      busRead State.reset .w32 0x040 = (.busError, 0) ∧ busRead State.reset .w32 0x0FC = (.busError, 0) ∧
      busRead State.reset .w32 0x100 = (.okay, 0) ∧ busRead State.reset .w32 0x01C = (.busError, 0) := by
  decide

theorem test_write_misaligned : busWrite State.reset .w32 0x006 1 = (.busError, State.reset) := by decide

theorem test_write_ctrl :
    busRead (busWrite State.reset .w32 0x000 0xFFFFFFFF).2 .w32 0x000 = (.okay, 0x00000001) := by decide

theorem test_write_kekLen :
    busRead (busWrite State.reset .w32 0x00C 0x00000120).2 .w32 0x00C = (.okay, 0x00000020) := by decide

/-- The byte of lowest index is in bits 31:24 (20_memory.md R80). -/
theorem test_byte_lanes :
    (busWrite State.reset .w32 0x104 0x11223344).2.buf = [(4, 0x11), (5, 0x22), (6, 0x33), (7, 0x44)] ∧
      (busWrite State.reset .w32 0x03C 0xA0000001).2.kekb = [(28, 0xA0), (31, 0x01)] := by decide

/-- A misaligned write stops the host's program, which starts no command (93_implementation_defined.md
I15). -/
theorem test_bus_error_faults :
    accessTurn { State.reset with host := [.write .w32 0x006 1] } = .fault .busError := rfl

theorem test_status_w1c :
    Status.writeW1C (.completed .integrityCheckFailed) 1 = .completed .integrityCheckFailed ∧
      (Status.writeW1C (.completed .integrityCheckFailed) 2).word = 0x00000030 := by decide

/-- T31: a reset between the CMD write and completion abandons the command. -/
theorem test_reset_abandons :
    (nextOf (takeTurn .reset ((loaded 16 16 [(0, 1)]).accept 1))).map
      (fun t => (t.status.word, t.buf, t.phase)) = some (0, [], .idle) := by decide

/-! ## Witnesses: for each obligation with hypotheses, states and operands that meet them together -/

/-- An accepted WRAP of 16 zero bytes, in CHECK. -/
def running : State := (loaded 16 16 []).accept 0x00000001

/-- The machine after reset on a platform that only reports a BUS_ERROR. -/
def reporting : State := { State.reset with cfg := { Config.example8 with busErrorAction := .report } }

/-- An accepted WRAP that CHECK will refuse (S4). -/
def refused : State := (loaded 15 16 []).accept 0x00000001

/-- A value wrapped by the block's own cipher under the key of `loaded 16`, with any initial value. -/
def wrapped (iv : Half) (p : List Byte) : State :=
  loaded 16 (BitVec.ofNat 32 (p.length + 8))
    (Memory.ofBytes (wrapCore (encryptBlock (loaded 16 0 []).hostKey) iv p))

/-- A padded short-path value, with any IV register (95_test_vectors.md T14). -/
def shortWrapped (iv : Half) (q : List Byte) : State :=
  loaded 16 16 (Memory.ofBytes (shortEncrypt (encryptBlock (loaded 16 0 []).hostKey) iv q))

/-- A buffer loaded with a byte string of DATA_LEN bytes is that input. -/
theorem hostInput_loaded {l : Nat} (klen : BitVec 8) {c : List Byte} (hc : c.length = l) (hl : l < 2 ^ 32) :
    (loaded klen (BitVec.ofNat 32 l) (Memory.ofBytes c)).hostInput = c := by
  have := Memory.readBytes_ofBytes c
  rwa [hc, ← Nat.mod_eq_of_lt hl, ← BitVec.toNat_ofNat] at this

theorem unwrapCore_wrapped (iv : Half) {n : Nat} {p : List Byte} (hp : p.length = 8 * n)
    (hl : p.length + 8 < 2 ^ 32) :
    unwrapCore (decryptBlock (wrapped iv p).hostKey) (wrapped iv p).hostInput = (p, iv) := by
  have hlen := wrapCore_length (encryptBlock (loaded 16 0 []).hostKey) iv hp
  rw [wrapped, hostInput_loaded 16 (by rw [hlen]; omega) hl]
  exact unwrapCore_wrapCore (decryptBlock_encryptBlock _) iv hp

theorem decrypt_shortWrapped (iv : Half) (q : List Byte) :
    decryptBlock (shortWrapped iv q).hostKey (be128 (shortWrapped iv q).hostInput) =
      joinHalves iv (be64 q) := by
  rw [shortWrapped, show (16 : Word) = BitVec.ofNat 32 16 from rfl,
    hostInput_loaded 16 (shortEncrypt_length _ _ _) (by omega), shortEncrypt, be128_bytes128]
  exact decryptBlock_encryptBlock _ _

/-- The invariant holds of a busy state. -/
theorem witness_inv_running : running.Inv where
  cfgWf := by decide
  busyIff := by decide
  busyClear := by decide
  idleClear := by decide
  errNoOutput := by decide
  outFits := by decide
  bufWf := by decide
  bufBound := by decide
  kekbWf := by decide
  kekbBound := by decide
  regCount := by decide
  snapHeld := by decide
  phaseOk := trivial

theorem witness_EncodedCommandDecodes : Instr.wf .nop = true ∧ Instr.wf .unwrapPad = true := by decide

theorem witness_RegisterMapIsOneToOne :
    HostReg.wf Config.example8 (.kek 0) = true ∧ HostReg.wf Config.example8 (.kek 7) = true ∧
      HostReg.wf Config.example8 (.buf 0) = true ∧ HostReg.wf Config.example8 (.buf 17) = true ∧
      decodeOffset Config.example8 0x000 = some .ctrl ∧ decodeOffset Config.example8 0x018 = some .caps ∧
      decodeOffset Config.example8 0x03C = some (.kek 7) ∧
      decodeOffset Config.example8 0x144 = some (.buf 17) := by decide

theorem witness_StepRunsDecodedCommand :
    ∃ s u : State, s.host = [.write .w32 0x004 0x00000001] ∧ s.turns = [.command] ∧
      u.host = [.write .w32 0x004 0x00000005] ∧ u.turns = [] ∧ u.phase = .idle ∧
      decode 0x00000001 = .command .wrap ∧ decode 0x00000005 = .illegal .reservedCode :=
  ⟨{ State.reset with host := [.write .w32 0x004 0x00000001], turns := [.command] },
    { State.reset with host := [.write .w32 0x004 0x00000005] }, by decide⟩

theorem witness_IdleMachineStays :
    State.reset.phase = .idle ∧ State.reset.turns = [] ∧ State.reset.host = [] := by decide

theorem witness_NopChangesNothing :
    ∃ s : State, s.status = { busy := false, done := true, err := .none } :=
  ⟨{ State.reset with status := .completed .none }, rfl⟩

/-- WRAP: the smallest and the largest input, both refused lengths at the edges, and a refused key. -/
theorem witness_WrapMeaning :
    (loaded 16 16 []).cfg.wf = true ∧ (loaded 16 16 []).status.busy = false ∧
      (loaded 16 16 []).ready .wrap ∧ (loaded 32 64 []).ready .wrap ∧
      (loaded 15 16 []).kekLen.toNat ∉ [16, 24, 32] ∧
      wrapLengthOk Config.example8 8 = false ∧ wrapLengthOk Config.example8 20 = false ∧
      wrapLengthOk Config.example8 72 = false ∧
      wrapLengthOk { Config.example8 with allowSingleBlock := true } 8 = true := by decide

/-- UNWRAP of a value wrapped with the default initial value, and of one wrapped with another. -/
theorem witness_UnwrapMeaning :
    (∃ s : State, s.cfg.wf = true ∧ s.ready .unwrap ∧ s.dataLen = 24 ∧
      (unwrapCore (decryptBlock s.hostKey) s.hostInput).2 = 0xA6A6A6A6A6A6A6A6) ∧
    (∃ s : State, s.cfg.wf = true ∧ s.ready .unwrap ∧ s.dataLen = 72 ∧
      (unwrapCore (decryptBlock s.hostKey) s.hostInput).2 ≠ 0xA6A6A6A6A6A6A6A6) ∧
    unwrapLengthOk Config.example8 16 = false ∧ unwrapLengthOk Config.example8 20 = false ∧
      unwrapLengthOk Config.example8 80 = false := by
  refine ⟨⟨wrapped ivKw p16, rfl, ⟨rfl, rfl, rfl⟩, rfl, ?_⟩,
    ⟨wrapped 0 (zeros 64), rfl, ⟨rfl, rfl, rfl⟩, rfl, ?_⟩, by decide⟩
  · rw [unwrapCore_wrapped ivKw (n := 2) (by decide) (by decide)]
    rfl
  · rw [unwrapCore_wrapped 0 (n := 8) (by decide) (by decide)]
    decide

theorem witness_WrapPadMeaning :
    (loaded 24 1 []).ready .wrapPad ∧ (loaded 24 8 []).ready .wrapPad ∧ (loaded 24 9 []).ready .wrapPad ∧
      (loaded 24 64 []).ready .wrapPad ∧ wrapPadLengthOk Config.example8 0 = false ∧
      wrapPadLengthOk Config.example8 65 = false := by decide

/-- UNWRAP_PAD on the short path: the four rows of T14 with 16 bytes, and T15. -/
theorem witness_UnwrapPadMeaning_short :
    ∀ iv : Half, ∃ s : State, s.cfg.wf = true ∧ s.ready .unwrapPad ∧ s.dataLen = 16 ∧
      msb64 (decryptBlock s.hostKey (be128 s.hostInput)) = iv ∧
      bytes64 (lsb64 (decryptBlock s.hostKey (be128 s.hostInput))) = p16.take 8 ∧
      (bytes64 0xA65959A700000008).take 4 ≠ [0xA6, 0x59, 0x59, 0xA6] ∧
      (bytes64 0xA65959A600000008).take 4 = [0xA6, 0x59, 0x59, 0xA6] ∧
      beNat ((bytes64 0xA65959A600000009).drop 4) = 9 ∧ beNat ((bytes64 0xA65959A600000000).drop 4) = 0 ∧
      (∃ b ∈ (p16.take 8).drop 7, b ≠ 0) ∧ (∀ b ∈ (p16.take 8).drop 8, b = 0) := by
  intro iv
  refine ⟨shortWrapped iv (p16.take 8), rfl,
    ⟨rfl, rfl, (by decide : lengthOk Config.example8 .unwrapPad 16 = true)⟩, rfl, ?_, ?_, by decide⟩
  · rw [decrypt_shortWrapped, msb64_joinHalves]
  · rw [decrypt_shortWrapped, lsb64_joinHalves]
    decide

/-- UNWRAP_PAD on the long path: the rows of T14 with 24 bytes. -/
theorem witness_UnwrapPadMeaning_long :
    ∀ iv : Half, ∃ s : State, s.cfg.wf = true ∧ s.ready .unwrapPad ∧ s.dataLen = 24 ∧
      unwrapCore (decryptBlock s.hostKey) s.hostInput = (p16, iv) ∧
      beNat ((bytes64 0xA65959A600000008).drop 4) = 8 ∧ beNat ((bytes64 0xA65959A600000011).drop 4) = 17 ∧
      beNat ((bytes64 0xA65959A600000010).drop 4) = 16 := by
  intro iv
  exact ⟨wrapped iv p16, rfl,
    ⟨rfl, rfl, (by decide : lengthOk Config.example8 .unwrapPad 24 = true)⟩, rfl,
    unwrapCore_wrapped iv (n := 2) (by decide) (by decide), by decide⟩

theorem witness_UnwrapPadMeaning_errors :
    unwrapPadLengthOk Config.example8 8 = false ∧ unwrapPadLengthOk Config.example8 20 = false ∧
      unwrapPadLengthOk Config.example8 80 = false ∧ (loaded 0 16 []).kekLen ≠ 16 ∧
      { Config.example8 with padZeroCheck := true }.wf = true := by decide

theorem witness_IllegalWordCompletesWithError :
    decode 0x00000005 = .illegal .reservedCode ∧ decode 0x00000010 = .illegal .reservedBits ∧
      State.reset.status.busy = false := by decide

theorem witness_FirstFailingCheckIsReported :
    decode 0x00000005 = .illegal .reservedCode ∧ Instr.wrap ≠ .nop ∧ State.reset.status.busy = false := by
  decide

theorem witness_AcceptanceTakesSnapshot :
    running.status.busy = true ∧ State.reset.status.busy = false ∧ (0x00000005 : Word) ≠ 0 := by decide

theorem witness_FinishWritesResult :
    (engineStep refused).phase = .finish (.err .unsupportedKeySize) ∧
      ∃ out, execute running.cfg running.snap = .ok out := ⟨by decide, _, rfl⟩

theorem witness_FailureRevealsOnlyItsCode :
    ∃ t t' : State, exec .wrap (loaded 15 16 [(3, 7)]) = .next t ∧
      exec .wrap { loaded 15 16 [(3, 7)] with buf := [(0, 1)], kekb := [(5, 5)] } = .next t' ∧
      t.status.err ≠ .none ∧ t'.status.err = t.status.err := ⟨_, _, rfl, rfl, by decide, by decide⟩

theorem witness_BytesBeyondOperandsIgnored :
    (∀ a < (loaded 16 16 []).dataLen.toNat, Memory.read [(16, 5)] a = (loaded 16 16 []).buf.read a) ∧
      ∀ a < (loaded 16 16 []).kekLen.toNat, Memory.read [(16, 5)] a = (loaded 16 16 []).kekb.read a := by
  decide

theorem witness_KeyMustBeReloaded :
    ∃ t : State, exec .wrap (loaded 16 16 []) = .next t ∧
      State.ready { t with dataLen := 16, buf := [(0, 1)] } .wrap := ⟨_, rfl, rfl, rfl, rfl⟩

/-- WRAP_STEP at the first position of a round, at the last of a round, and at the last of all. -/
theorem witness_WrapStepValues :
    ∃ s : State, s.phase = .wrapStep ∧ s.i = 1 ∧ s.snap.blocks = 2 ∧ s.snap.blocks ≤ s.work.r.length ∧
      { s with j := 5, i := 2 }.snap.blocks = 2 := ⟨engineStep running, by decide⟩

/-- UNWRAP_STEP at the first position, and at the last of all. -/
theorem witness_UnwrapStepValues :
    ∃ s : State, s.phase = .unwrapStep ∧ s.j = 5 ∧ s.i = 2 ∧ s.snap.blocks = 2 ∧
      s.snap.blocks ≤ s.work.r.length ∧ { s with j := 0, i := 1 }.snap.blocks = 2 :=
  ⟨engineStep ((loaded 16 24 []).accept 2), by decide⟩

theorem witness_ChainingEngineLaws :
    p16.length = 8 * 2 ∧ (p16.take 8).length = 8 * 1 ∧ s1Output.length = 8 * (2 + 1) ∧
      running.snap.blocks = 2 := by decide

theorem witness_PaddingLaws :
    1 ≤ (p16.take 1).length ∧ (p16.take 8).length ≤ 8 ∧ ¬(p16.take 9).length ≤ 8 ∧
      (p16.take 9).length < 2 ^ 32 := by decide

theorem witness_PhasedEngineMatchesCommand :
    (1 : Word) ≠ 0 ∧ (loaded 16 16 []).status.busy = false ∧ decode 1 = .command .wrap ∧
      decode 5 = .illegal .reservedCode := by decide

theorem witness_CipherCallsAreFixed :
    (loaded 16 16 []).ready .wrap ∧ (loaded 16 72 []).ready .unwrap ∧ (loaded 16 8 []).ready .wrapPad ∧
      (loaded 16 9 []).ready .wrapPad ∧ (loaded 16 16 []).ready .unwrapPad ∧
      (loaded 16 24 []).ready .unwrapPad := by decide

theorem witness_EarlyFailureMakesNoCipherCall :
    decode 5 = .illegal .reservedCode ∧ decode 3 = .command .wrapPad ∧
      keySizeOk (loaded 15 16 []).kekLen = false ∧
      lengthOk (loaded 16 0 []).cfg .wrapPad (loaded 16 0 []).dataLen.toNat = false := by decide

theorem witness_BusyCommandCompletes : running.Inv ∧ running.turns = [] ∧ running.phase ≠ .idle :=
  ⟨witness_inv_running, by decide⟩

theorem witness_WrapThenUnwrapRestores :
    (loaded 16 16 []).cfg.wf = true ∧ (loaded 16 16 []).ready .wrap ∧ (loaded 16 64 []).ready .wrap := by
  decide

theorem witness_WrapPadThenUnwrapPadRestores :
    (loaded 16 1 []).cfg.wf = true ∧ (loaded 16 1 []).ready .wrapPad ∧ (loaded 16 64 []).ready .wrapPad := by
  decide

theorem witness_CrossVariantUnwrapFails :
    (loaded 16 9 []).ready .wrapPad ∧ (loaded 16 64 []).ready .wrapPad ∧ (loaded 16 16 []).ready .wrap ∧
      (loaded 16 64 []).ready .wrap := by decide

/-- A completed read, and unmapped offsets at the edges of their ranges. -/
theorem witness_BusReadValues :
    (∃ s t : State, s.host = [.read .w32 0x100] ∧ accessTurn s = .next t) ∧ 0x001 % 4 ≠ 0 ∧
      (0x040 ≤ 0x040 ∧ 0x0FF ≤ 0x0FF) ∧ 0x100 + 8 * (State.reset.cfg.nMax + 1) = 0x148 ∧
      State.reset.cfg.nMax < 2 ^ 24 :=
  ⟨⟨{ State.reset with host := [.read .w32 0x100] }, _, rfl, rfl⟩, by decide⟩

theorem witness_BusWriteEffects : (loaded 16 16 [(3, 7)]).buf.wf ∧ (loaded 16 16 []).kekb.wf := by decide

theorem witness_BusyGatesWrites :
    running.status.busy = true ∧ 4 * 17 < 8 * (running.cfg.nMax + 1) ∧ ¬4 * 18 < 8 * (running.cfg.nMax + 1) := by
  decide

theorem witness_BusErrorChangesNothing :
    ∃ s u : State, s.cfg.busErrorAction = .report ∧ s.host = [.read .w8 0x000] ∧
      u.cfg.busErrorAction = .fault ∧ u.host = [.write .w32 0x006 1] ∧ Width.w8 ≠ .w32 :=
  ⟨{ reporting with host := [.read .w8 0x000] }, { State.reset with host := [.write .w32 0x006 1] },
    by decide⟩

theorem witness_CapsIsConstant :
    State.reset.cfg.wf = true ∧ ∃ t, step { State.reset with turns := [.reset] } = .next t :=
  ⟨by decide, _, rfl⟩

theorem witness_ReadAfterWrite :
    (loaded 16 16 [(3, 7)]).status.busy = false ∧ (loaded 16 16 [(3, 7)]).buf.wf := by decide

theorem witness_WindowStartsAtBase :
    ({ Config.example8 with base := 0x40000000 } : Config).wf = true ∧
      windowOffset { Config.example8 with base := 0x40000000 } 0x40000147 = some 0x147 := by decide

theorem witness_InterruptIsLevelOfDone :
    (1 : Word) ≠ 0 ∧ decode 1 = .command .wrap ∧ decode 5 = .illegal .reservedCode ∧
      State.reset.status.busy = false ∧ (engineStep refused).phase = .finish (.err .unsupportedKeySize) ∧
      (2 : Word).getLsbD 1 = true ∧ (1 : Word).getLsbD 0 = true ∧
      { State.reset with status := .completed .none }.status.done = true := by decide

theorem witness_ResetClearsBlock : { running with turns := [.reset] }.turns = .reset :: [] := by decide

theorem witness_StepKeepsInvariant : running.Inv ∧ step running = .next (engineStep running) :=
  ⟨witness_inv_running, rfl⟩

/-- A step for each flag change of 10_state.md R44. -/
theorem witness_FlagsChangeOnlyAsTabulated :
    (nextOf (step { loaded 15 16 [] with host := [.write .w32 0x004 1], turns := [.access] })).map
        (·.status) = some .accepted ∧
      (nextOf (step { loaded 15 16 [] with host := [.write .w32 0x004 1] })).map
        (·.status) = some (.completed .unsupportedKeySize) ∧
      (nextOf (step (engineStep refused))).map (·.status) = some (.completed .unsupportedKeySize) ∧
      (nextOf (step { State.reset with
        status := .completed .none, host := [.write .w32 0x008 2] })).map (·.status.done) = some false ∧
      (nextOf (step { State.reset with status := .completed .illegalCommand, turns := [.reset] })).map
        (·.status.err) = some .none := by decide

theorem witness_OutputChangesOnlyAtFinish :
    running.Inv ∧ running.phase ≠ .idle ∧ step running = .next (engineStep running) ∧
      running.turns.head? ≠ some .reset ∧ ∀ r, running.phase ≠ .finish r :=
  ⟨witness_inv_running, by decide, rfl, by decide, fun _ h => by cases h⟩

/-- The host writes BUF and a second command while the refused command runs; one engine turn is left. -/
theorem witness_ScheduleDoesNotChangeResult :
    ∃ s u : State, (∀ k ≤ 1, (engineRun k s).status.busy = true) ∧
      (engineRun (1 + 1) s).status.busy = false ∧
      List.count .engine [Turn.access, .engine, .command] = 1 ∧
      runSteps 4 { s with turns := [.access, .engine, .command] ++ [.engine] } = .next u :=
  ⟨{ refused with host := [.write .w32 0x100 5, .write .w32 0x004 2] }, _, by decide, by decide, by decide, rfl⟩

theorem witness_PseudoInstructionExpansions :
    kwKeyWf (zeros 16) = true ∧ kwKeyWf (zeros 32) = true ∧ kwDataWf Config.example8 [] = true ∧
      kwDataWf Config.example8 (zeros 72) = true := by decide

theorem witness_KeyLoadWritesKey :
    kwKeyWf p16 = true ∧ State.reset.status.busy = false ∧ State.reset.kekb.wf := by decide

theorem witness_DataLoadWritesInput :
    kwDataWf State.reset.cfg (p16.take 7) = true ∧ kwDataWf State.reset.cfg (zeros 72) = true ∧
      State.reset.cfg.wf = true ∧ State.reset.status.busy = false ∧ State.reset.buf.wf := by decide

theorem witness_PollRepeatsUntilMatch :
    ∃ s u : State, s.host = [.poll 0x008 1 0] ∧ busRead s .w32 0x008 = (.okay, 0) ∧ (0 : Word) &&& 1 = 0 ∧
      u.host = [.poll 0x008 1 0] ∧ busRead u .w32 0x008 = (.okay, 1) ∧ (1 : Word) &&& 1 ≠ 0 :=
  ⟨{ State.reset with host := [.poll 0x008 1 0] }, { running with host := [.poll 0x008 1 0] }, by decide⟩

/-- A poll of an unmapped offset, on a platform with either BUS_ERROR_ACTION. -/
theorem witness_PollRepeatsUntilMatch_busError :
    ∃ s u : State, s.host = [.poll 0x01C 1 0] ∧ (busRead s .w32 0x01C).1 = .busError ∧
      s.cfg.busErrorAction = .fault ∧ u.host = [.poll 0x01C 1 1] ∧
      (busRead u .w32 0x01C).1 = .busError ∧ u.cfg.busErrorAction = .report :=
  ⟨{ State.reset with host := [.poll 0x01C 1 0] }, { reporting with host := [.poll 0x01C 1 1] }, by decide⟩

theorem witness_WaitEndsWithInterrupt :
    ∃ s u : State, s.host = [.waitIrq] ∧ s.ie = true ∧ s.status.done = true ∧ s.cfg.irqRouted = true ∧
      u.host = [.waitIrq] ∧ u.ie = false :=
  ⟨{ State.reset with ie := true, status := .completed .none, host := [.waitIrq] },
    { State.reset with host := [.waitIrq] }, by decide⟩

end Sys2Proof.Machine
end

section
/-! Proofs: the fixed number of cipher calls of a command (00_scope.md R9). -/

namespace Sys2Proof.Machine

/-- Acceptance of a command other than NOP leads to CHECK (42_commands.md R220). -/
theorem accept_encode_phase {i : Instr} (hi : i ≠ .nop) (s : State) :
    (s.accept (encode i)).phase = .check := by
  rw [s.accept_of_ne _ (encode_ne_zero hi)]

/-- Acceptance of a command other than NOP takes the snapshot (42_commands.md R225). -/
theorem accept_encode_snap {i : Instr} (hi : i ≠ .nop) (s : State) :
    (s.accept (encode i)).snap = s.takeSnapshot (encode i) := by
  rw [s.accept_of_ne _ (encode_ne_zero hi)]

/-- A command accepted from a ready state has passed the checks on its snapshot. -/
theorem checked_accept_of_ready {i : Instr} (hi : i ≠ .nop) {s : State} (h : s.ready i) :
    (s.accept (encode i)).checked i := by
  obtain ⟨-, hkey, hlen⟩ := h
  rw [State.checked, State.running, accept_encode_snap hi, State.accept_cfg]
  exact ⟨by simp, hkey, hlen⟩

/-- Settles O24: the run of the accepted command reaches FINISH with exactly `callCount` calls made, goes
on to IDLE, and makes none after that. -/
theorem cipherCallsAreFixed : Obligations.CipherCallsAreFixed := by
  intro s i hi hready
  obtain ⟨m, c, -, hreach, -, hcalls⟩ := reaches_execute (accept_encode_phase hi s)
  have hc : c = callCount i s.dataLen.toNat := by
    rw [hcalls i hi (checked_accept_of_ready hi hready), accept_encode_snap hi, takeSnapshot_length]
  refine ⟨m + 1, ?_, fun k hk => ?_⟩
  · rw [engineRun_of_reaches hreach, State.finish_phase]
  · rw [hreach.calls_after (by omega : m ≤ k), hc, callCount]

end Sys2Proof.Machine
end

section
/-! Proofs: the invariant of the block holds after reset and every step keeps it (10_state.md R31, R36, R43,
R50, R51; 42_commands.md R220, R226). -/

namespace Sys2Proof.Machine

/-- A result that FINISH can hold: an output fits the buffer, and an error is one (42_commands.md R226). -/
def CmdResult.fits (c : Config) : CmdResult → Prop
  | .ok out => out.length ≤ c.bufBytes
  | .err e => e ≠ .none

/-- The part of the invariant that the engine's steps inside a command can change. -/
def State.engineOk (s : State) : Prop := s.work.r.length = s.cfg.nMax ∧ s.phaseOk

theorem Config.two_le_nMax {c : Config} (h : c.wf = true) : 2 ≤ c.nMax := by
  simp only [Config.wf, Bool.and_eq_true, decide_eq_true_eq] at h
  exact h.1.1

theorem phaseOk_of_finish {s : State} {r : CmdResult} (h : s.phase = .finish r) :
    s.phaseOk ↔ r.fits s.cfg := by
  cases r <;> rw [State.phaseOk, h] <;> rfl

/-! ### What holds of a command whose operands passed the checks -/

theorem Snapshot.blocks_of_decode {q : Snapshot} {i : Instr} (h : decode q.word = .command i) :
    q.blocks = blockCount i q.length := by rw [Snapshot.blocks, h]

theorem one_le_minBlocks (c : Config) : 1 ≤ minBlocks c := by unfold minBlocks; split <;> omega

/-- A length that a command's check accepts has at least one block (42_commands.md R222, R223). -/
theorem one_le_blockCount {c : Config} {i : Instr} {l : Nat} (hi : i ≠ .nop) (h : lengthOk c i l = true) :
    1 ≤ blockCount i l := by
  have hmin := one_le_minBlocks c
  cases i with
  | nop => exact absurd rfl hi
  | wrap | unwrap =>
    simp only [lengthOk, wrapLengthOk, unwrapLengthOk, Bool.and_eq_true, decide_eq_true_eq] at h
    exact hmin.trans h.1.2
  | wrapPad =>
    simp only [lengthOk, wrapPadLengthOk, Bool.and_eq_true, decide_eq_true_eq] at h
    have := le_ceil8 l
    simp only [blockCount]
    omega
  | unwrapPad =>
    simp only [lengthOk, unwrapPadLengthOk, Bool.and_eq_true, decide_eq_true_eq] at h
    simp only [blockCount]
    omega

theorem State.checked.one_le_blocks {s : State} {i : Instr} (h : s.checked i) (hi : i ≠ .nop) :
    1 ≤ s.snap.blocks := by
  obtain ⟨hrun, -, hlen⟩ := h
  rw [Snapshot.blocks_of_decode hrun]
  exact one_le_blockCount hi hlen

theorem State.checked.blocks_le {s : State} {i : Instr} (h : s.checked i) :
    s.snap.blocks ≤ s.cfg.nMax := by
  obtain ⟨hrun, -, hlen⟩ := h
  rw [Snapshot.blocks_of_decode hrun]
  exact blockCount_le_nMax hlen

/-! ### The engine's steps inside a command -/

theorem engineOk_toFinish {s : State} {r : CmdResult} (hr : s.work.r.length = s.cfg.nMax)
    (h : r.fits s.cfg) : (s.toFinish r).engineOk :=
  ⟨hr, (phaseOk_of_finish rfl).mpr h⟩

/-- The registers after a load: as many as before, when the blocks loaded fit (40_chaining_engine.md R142). -/
theorem loadWrap_r_length {n : Nat} {w : Work} (iv : Half) (p : List Byte) (h : n ≤ w.r.length) :
    (loadWrap n iv p w).r.length = w.r.length := by
  simp [loadWrap, h]

theorem loadUnwrap_r_length {n : Nat} {w : Work} (c : List Byte) (h : n ≤ w.r.length) :
    (loadUnwrap n c w).r.length = w.r.length := by
  simp [loadUnwrap, h]

theorem engineOk_startWrap {s : State} {n : Nat} (iv : Half) (p : List Byte)
    (hr : s.work.r.length = s.cfg.nMax) (hn : n = s.snap.blocks) (h1 : 1 ≤ n) (hle : n ≤ s.cfg.nMax)
    (h : s.checked .wrap ∨ s.checked .wrapPad ∧ 2 ≤ s.snap.blocks) : (s.startWrap n iv p).engineOk :=
  ⟨(loadWrap_r_length iv p (hr ▸ hle)).trans hr, h, Nat.zero_le 5, le_rfl, hn ▸ h1⟩

theorem engineOk_startUnwrap {s : State} {n : Nat} (c : List Byte)
    (hr : s.work.r.length = s.cfg.nMax) (hn : n = s.snap.blocks) (h1 : 1 ≤ n) (hle : n ≤ s.cfg.nMax)
    (h : s.checked .unwrap ∨ s.checked .unwrapPad ∧ 2 ≤ s.snap.blocks) : (s.startUnwrap n c).engineOk :=
  ⟨(loadUnwrap_r_length c (hr ▸ hle)).trans hr, h, le_rfl, h1, hn.le⟩

theorem engineOk_startWrapCommand {s : State} (hr : s.work.r.length = s.cfg.nMax)
    (h : s.checked .wrap) : s.startWrapCommand.engineOk := by
  have hn : s.snap.input.length / 8 = s.snap.blocks := by
    rw [Snapshot.input_length, Snapshot.blocks_of_decode h.1, blockCount]
  refine engineOk_startWrap _ _ hr hn ?_ ?_ (.inl h) <;> rw [hn]
  · exact h.one_le_blocks (by simp)
  · exact h.blocks_le

theorem engineOk_startUnwrapCommand {s : State} (hr : s.work.r.length = s.cfg.nMax)
    (h : s.checked .unwrap) : s.startUnwrapCommand.engineOk := by
  have hn : s.snap.input.length / 8 - 1 = s.snap.blocks := by
    rw [Snapshot.input_length, Snapshot.blocks_of_decode h.1, blockCount]
  refine engineOk_startUnwrap _ hr hn ?_ ?_ (.inl h) <;> rw [hn]
  · exact h.one_le_blocks (by simp)
  · exact h.blocks_le

/-- After CHECK of WRAP_PAD: one block takes the short path, two or more the wrap rounds
(41_padding_extension.md R183). -/
theorem engineOk_startWrapPadCommand {s : State} (hr : s.work.r.length = s.cfg.nMax)
    (h : s.checked .wrapPad) : s.startWrapPadCommand.engineOk := by
  have hblocks : s.snap.blocks = ceil8 s.snap.length := Snapshot.blocks_of_decode h.1
  have hpad := padPlaintext_length s.snap.input
  rw [Snapshot.input_length, ← hblocks] at hpad
  have h1 := h.one_le_blocks (by simp)
  have hle := h.blocks_le
  rw [State.startWrapPadCommand]
  by_cases h8 : (padPlaintext s.snap.input).length = 8
  · rw [if_pos h8]
    exact ⟨(loadWrap_r_length _ _ (by omega)).trans hr, h, show s.snap.blocks = 1 by omega⟩
  · rw [if_neg h8]
    exact engineOk_startWrap _ _ hr (by omega) (by omega) (by omega) (.inr ⟨h, by omega⟩)

/-- After CHECK of UNWRAP_PAD: a value of one block takes the short path (41_padding_extension.md R185). -/
theorem engineOk_startUnwrapPadCommand {s : State} (hr : s.work.r.length = s.cfg.nMax)
    (h : s.checked .unwrapPad) : s.startUnwrapPadCommand.engineOk := by
  have hblocks : s.snap.blocks = s.snap.length / 8 - 1 := Snapshot.blocks_of_decode h.1
  have h1 := h.one_le_blocks (by simp)
  have hle := h.blocks_le
  have h8 : s.snap.length % 8 = 0 := by
    have hlen := h.2.2
    simp only [lengthOk, unwrapPadLengthOk, Bool.and_eq_true, decide_eq_true_eq] at hlen
    exact hlen.1.1
  rw [State.startUnwrapPadCommand, Snapshot.input_length]
  by_cases h16 : s.snap.length = 16
  · rw [if_pos h16]
    exact ⟨hr, h, show s.snap.blocks = 1 by omega⟩
  · rw [if_neg h16]
    exact engineOk_startUnwrap _ hr hblocks.symm (by omega) (by omega) (.inr ⟨h, by omega⟩)

/-- The operands' check reports a proper error (60_exceptions.md R272). -/
theorem operandError_ne_none {f : Config → Nat → Bool} {c : Config} {q : Snapshot} {e : ErrCode}
    (h : operandError f c q = some e) : e ≠ .none := by
  unfold operandError at h
  split at h
  · cases h; simp
  · split at h
    · cases h; simp
    · cases h

theorem engineOk_checkOperands {s : State} {i : Instr} {f : Config → Nat → Bool} {start : State → State}
    (hr : s.work.r.length = s.cfg.nMax) (hrun : s.running i) (hf : f s.cfg = lengthOk s.cfg i)
    (hstart : s.checked i → (start s).engineOk) : (s.checkOperands f start).engineOk := by
  rw [State.checkOperands]
  cases he : operandError f s.cfg s.snap with
  | some e => exact engineOk_toFinish hr (operandError_ne_none he)
  | none =>
    obtain ⟨hkey, hlen⟩ := operandError_eq_none.mp he
    exact hstart ⟨hrun, hkey, hf ▸ hlen⟩

theorem engineOk_check {s : State} (hr : s.work.r.length = s.cfg.nMax) : s.check.engineOk := by
  have hillegal : CmdResult.fits s.cfg (.err .illegalCommand) := ErrCode.noConfusion
  unfold State.check
  split
  · exact engineOk_toFinish hr hillegal
  · exact engineOk_toFinish hr hillegal
  · exact engineOk_checkOperands hr ‹_› rfl (engineOk_startWrapCommand hr)
  · exact engineOk_checkOperands hr ‹_› rfl (engineOk_startUnwrapCommand hr)
  · exact engineOk_checkOperands hr ‹_› rfl (engineOk_startWrapPadCommand hr)
  · exact engineOk_checkOperands hr ‹_› rfl (engineOk_startUnwrapPadCommand hr)

/-- WRAP_STEP moves to a position in range, or after (5, n) to FINISH with an output of `8(n+1)` bytes
(10_state.md R51). -/
theorem engineOk_wrapPhase {s : State} (hr : s.work.r.length = s.cfg.nMax) (hp : s.phase = .wrapStep)
    (hok : s.phaseOk) : s.wrapPhase.engineOk := by
  rw [State.phaseOk, hp] at hok
  obtain ⟨hchecked, hj, hi1, hi⟩ := hok
  have hle : s.snap.blocks ≤ s.cfg.nMax := hchecked.elim (·.blocks_le) (·.1.blocks_le)
  have hwr : (wrapStep (encryptBlock s.snap.key) s.snap.blocks s.j s.i s.work).r.length = s.cfg.nMax :=
    (wrapStep_r_length ..).trans hr
  rw [State.wrapPhase]
  split
  · refine ⟨hwr, ?_⟩
    simp only [State.phaseOk, hp]
    exact ⟨hchecked, hj, by omega, by omega⟩
  · split
    · refine ⟨hwr, ?_⟩
      simp only [State.phaseOk, hp]
      exact ⟨hchecked, by omega, le_rfl, by omega⟩
    · refine ⟨hwr, (phaseOk_of_finish rfl).mpr ?_⟩
      rw [CmdResult.fits, unloadWrap_length (hwr ▸ hle), Config.bufBytes]
      simpa using hle

/-- UNWRAP_STEP moves to a position in range, or after (0, 1) to VERIFY (10_state.md R51). -/
theorem engineOk_unwrapPhase {s : State} (hr : s.work.r.length = s.cfg.nMax)
    (hp : s.phase = .unwrapStep) (hok : s.phaseOk) : s.unwrapPhase.engineOk := by
  rw [State.phaseOk, hp] at hok
  obtain ⟨hchecked, hj, hi1, hi⟩ := hok
  have hwr : (unwrapStep (decryptBlock s.snap.key) s.snap.blocks s.j s.i s.work).r.length = s.cfg.nMax :=
    (unwrapStep_r_length ..).trans hr
  rw [State.unwrapPhase]
  split
  · refine ⟨hwr, ?_⟩
    simp only [State.phaseOk, hp]
    exact ⟨hchecked, hj, by omega, by omega⟩
  · split
    · refine ⟨hwr, ?_⟩
      simp only [State.phaseOk, hp]
      exact ⟨hchecked, by omega, by omega, le_rfl⟩
    · exact ⟨hwr, hchecked.imp id And.left⟩

theorem checkIv_fits {c : Config} (a : Half) {p : List Byte} (h : p.length ≤ c.bufBytes) :
    (checkIv a p).fits c := by
  unfold checkIv
  split
  · exact ErrCode.noConfusion
  · exact h

theorem checkPadded_fits {c : Config} (z : Bool) (a : Half) {q : List Byte} (h : q.length ≤ c.bufBytes) :
    (checkPadded z a q).fits c := by
  unfold checkPadded
  split
  · exact ErrCode.noConfusion
  · split
    · exact ErrCode.noConfusion
    · split
      · exact ErrCode.noConfusion
      · exact (List.length_take_le' ..).trans h

/-- VERIFY answers with an error, or with at most the `8n` bytes it unloads (42_commands.md R229, R231). -/
theorem engineOk_verifyPhase {s : State} (hr : s.work.r.length = s.cfg.nMax) (hp : s.phase = .verify)
    (hok : s.phaseOk) : s.verifyPhase.engineOk := by
  rw [State.phaseOk, hp] at hok
  have hle : s.snap.blocks ≤ s.cfg.nMax := hok.elim (·.blocks_le) (·.blocks_le)
  have hfits : (unloadUnwrap s.snap.blocks s.work).length ≤ s.cfg.bufBytes := by
    rw [unloadUnwrap_length (hr ▸ hle), Config.bufBytes]
    omega
  rcases hok with h | h <;> rw [State.verifyPhase, h.1]
  · exact engineOk_toFinish hr (checkIv_fits _ hfits)
  · exact engineOk_toFinish hr (checkPadded_fits _ _ hfits)

/-- Every step of the engine keeps the part of the invariant it can change, but for FINISH. -/
theorem engineOk_engineStep {s : State} (hs : s.Inv) (hnf : ∀ r, s.phase ≠ .finish r) :
    (engineStep s).engineOk := by
  have hr := hs.regCount
  have hok := hs.phaseOk
  have h2 := Config.two_le_nMax hs.cfgWf
  cases hp : s.phase with
  | idle => simpa only [engineStep, hp] using ⟨hr, hok⟩
  | check => simpa only [engineStep, hp] using engineOk_check hr
  | wrapStep => simpa only [engineStep, hp] using engineOk_wrapPhase hr hp hok
  | unwrapStep => simpa only [engineStep, hp] using engineOk_unwrapPhase hr hp hok
  | shortEnc =>
    have hfits : 16 ≤ s.cfg.bufBytes := by unfold Config.bufBytes; omega
    simp only [engineStep, hp]
    exact engineOk_toFinish hr ((bytes128_length _).trans_le hfits)
  | shortDec =>
    rw [State.phaseOk, hp] at hok
    simp only [engineStep, hp]
    refine ⟨?_, .inr hok.1⟩
    simp only [State.shortDecPhase, List.length_cons, List.length_drop]
    omega
  | verify => simpa only [engineStep, hp] using engineOk_verifyPhase hr hp hok
  | finish r => exact absurd hp (hnf r)

/-! ### The invariant is kept by each agent's move -/

/-- The invariant does not speak of the host, the schedule and the record. -/
theorem State.Inv.of_host {s : State} (h : s.Inv) (host : List HostOp) (turns : List Turn)
    (responses : List Response) :
    State.Inv { s with host := host, turns := turns, responses := responses } where
  cfgWf := h.cfgWf
  busyIff := h.busyIff
  busyClear := h.busyClear
  idleClear := h.idleClear
  errNoOutput := h.errNoOutput
  outFits := h.outFits
  bufWf := h.bufWf
  bufBound := h.bufBound
  kekbWf := h.kekbWf
  kekbBound := h.kekbBound
  regCount := h.regCount
  snapHeld := h.snapHeld
  phaseOk := h.phaseOk

/-- A step inside a command keeps the invariant where it keeps the engine's part of it. -/
theorem State.Inv.of_sameButWork {s t : State} (h : s.Inv) (hst : SameButWork s t) (hs : s.phase ≠ .idle)
    (ht : t.phase ≠ .idle) (hok : t.engineOk) : t.Inv := by
  have hbusy := h.busyIff.mpr hs
  obtain ⟨hr, hok⟩ := hok
  rw [hst] at *
  exact {
    cfgWf := h.cfgWf
    busyIff := iff_of_true hbusy ht
    busyClear := h.busyClear
    idleClear := fun hidle => absurd hidle ht
    errNoOutput := h.errNoOutput
    outFits := h.outFits
    bufWf := h.bufWf
    bufBound := h.bufBound
    kekbWf := h.kekbWf
    kekbBound := h.kekbBound
    regCount := hr
    snapHeld := fun _ => h.snapHeld hs
    phaseOk := hok }

/-- FINISH with a result that fits keeps the invariant (42_commands.md R226). -/
theorem State.Inv.finish {s : State} (h : s.Inv) {r : CmdResult} (hr : r.fits s.cfg) :
    (s.finish r).Inv where
  cfgWf := by simpa using h.cfgWf
  busyIff := by cases r <;> simp [State.finish]
  busyClear := by cases r <;> simp [State.finish]
  idleClear := by simp
  errNoOutput := by cases r <;> simp [State.finish]
  outFits := by
    cases r with
    | ok out =>
      rw [State.finish_cfg, State.finish, State.succeed_outLen, BitVec.toNat_ofNat]
      exact (Nat.mod_le ..).trans hr
    | err e => exact Nat.zero_le _
  bufWf := by
    cases r with
    | ok out => exact Memory.ofBytes_wf out
    | err e => exact Memory.wf_nil
  bufBound := by
    cases r with
    | ok out => exact fun c hc => (Memory.mem_ofBytes hc).trans_le hr
    | err e => simp [State.finish]
  kekbWf := by rw [State.finish_kekb]; exact Memory.wf_nil
  kekbBound := by simp
  regCount := by simp [Work.zero]
  snapHeld := by simp
  phaseOk := by rw [State.phaseOk, State.finish_phase]; trivial

theorem State.Inv.engineStep {s : State} (h : s.Inv) : (engineStep s).Inv := by
  rcases engineStep_cases s with ⟨-, hstep⟩ | ⟨r, hp, hstep⟩ | ⟨hs, hnf, hsame, ht⟩
  · rwa [hstep]
  · rw [hstep]
    exact h.finish ((phaseOk_of_finish hp).mp h.phaseOk)
  · exact h.of_sameButWork hsame hs ht (engineOk_engineStep h hnf)

theorem State.Inv.engineRun {s : State} (h : s.Inv) (m : Nat) : (engineRun m s).Inv := by
  induction m generalizing s with
  | zero => exact h
  | succ m ih => exact ih h.engineStep

/-- Acceptance by a block that is not busy keeps the invariant (42_commands.md R220, R225). -/
theorem State.Inv.accept {s : State} (h : s.Inv) {v : Word} (hv : v ≠ 0) : (s.accept v).Inv := by
  rw [s.accept_of_ne v hv]
  exact { h with
    busyIff := by simp
    busyClear := by simp
    idleClear := by simp
    errNoOutput := by simp
    outFits := Nat.zero_le _
    snapHeld := fun _ => ⟨rfl, rfl, rfl, rfl, by simpa using hv⟩
    phaseOk := trivial }

/-- The run of an accepted word reaches FINISH with the result of `Execute` (42_commands.md R224). -/
theorem reaches_accept {v : Word} (hv : v ≠ 0) (s : State) :
    ∃ m c, Reaches (s.accept v) m (execute s.cfg (s.takeSnapshot v)) c := by
  rw [s.accept_of_ne v hv]
  obtain ⟨m, c, -, hreach, -⟩ := reaches_execute (s := { s with
    status := .accepted, outLen := 0, snap := s.takeSnapshot v, phase := .check }) rfl
  exact ⟨m, c, hreach⟩

/-- A command word run in one step keeps the invariant, as the engine's run of it does. -/
theorem State.Inv.runWord {s t : State} (h : s.Inv) {v : Word} (ht : runWord v s = .next t) : t.Inv := by
  rw [runWord_eq, Host.Outcome.next.injEq] at ht
  split at ht
  · rwa [← ht]
  · rename_i hv
    rw [not_or] at hv
    obtain ⟨m, c, hreach⟩ := reaches_accept hv.2 s
    rw [← ht, ← engineRun_of_reaches hreach]
    exact (h.accept hv.2).engineRun (m + 1)

/-- A write to STATUS clears DONE where bit 1 is set, and nothing else (10_state.md R36). -/
theorem Status.writeW1C_eq (st : Status) (v : Word) :
    st.writeW1C v = { st with done := st.done && !v.getLsbD 1 } := by
  cases hv : v.getLsbD 1 <;> simp only [Status.writeW1C, hv] <;> simp

/-- A write of the host keeps the invariant: while BUSY it changes at most CTRL.IE and DONE, which is 0
(10_state.md R43). -/
theorem State.Inv.busWrite {s : State} (h : s.Inv) (w : Width) (off : Nat) (v : Word) :
    (busWrite s w off v).2.Inv := by
  have hidle (hb : s.status.busy = false) : s.phase = .idle := by simpa [hb] using h.busyIff
  rcases busWrite_cases s w off v with
    heq | heq | ⟨-, -, heq⟩ | ⟨hb, ⟨-, -, heq⟩ | heq | heq | ⟨k, hk, heq⟩ | ⟨k, hk, heq⟩⟩
  · rwa [heq]
  · rw [heq]
    exact { h with }
  · rw [heq, Status.writeW1C_eq]
    exact { h with
      busyClear := fun hbusy => by
        obtain ⟨hdone, herr, hout⟩ := h.busyClear hbusy
        simp [hdone, herr, hout] }
  · rw [heq]
    by_cases hv : v = 0
    · simpa [hv] using h
    · exact h.accept hv
  · rw [heq]
    exact { h with snapHeld := fun hne => absurd (hidle hb) hne }
  · rw [heq]
    exact { h with snapHeld := fun hne => absurd (hidle hb) hne }
  · rw [heq]
    exact { h with
      kekbWf := Memory.writeWord_wf h.kekbWf k v
      kekbBound := fun c hc => (Memory.mem_writeWord hc).elim (by omega) (h.kekbBound c)
      snapHeld := fun hne => absurd (hidle hb) hne }
  · rw [heq]
    exact { h with
      bufWf := Memory.writeWord_wf h.bufWf k v
      bufBound := fun c hc => (Memory.mem_writeWord hc).elim (fun hw => hw.2.trans_le hk) (h.bufBound c)
      snapHeld := fun hne => absurd (hidle hb) hne }

theorem State.Inv.accessTurn {s t : State} (h : s.Inv) (ht : accessTurn s = .next t) : t.Inv := by
  rcases accessTurn_cases ht with ⟨hs, rs, rfl⟩ | ⟨w, off, v, ops, -, rfl⟩
  · exact h.of_host hs s.turns rs
  · exact ((h.of_host ops s.turns s.responses).busWrite w off v).of_host _ _ _

/-- The block right after `rst` meets the invariant, if its parameters are legal (70_reset_and_hazards.md
R300). -/
theorem resetBlock_inv {s : State} (h : s.cfg.wf = true) : s.resetBlock.Inv where
  cfgWf := h
  busyIff := by simp
  busyClear := by simp
  idleClear := by simp
  errNoOutput := by simp
  outFits := Nat.zero_le _
  bufWf := Memory.wf_nil
  bufBound := by simp
  kekbWf := Memory.wf_nil
  kekbBound := by simp
  regCount := by simp [Work.zero]
  snapHeld := by simp
  phaseOk := trivial

/-- Settles O43: each agent's move keeps the invariant, and a step is the move of one agent. -/
theorem stepKeepsInvariant : Obligations.StepKeepsInvariant := by
  intro s t h hstep
  obtain ⟨ts, -, rfl | haccess | ⟨v, ops, -, hrun⟩ | ⟨-, rfl⟩⟩ := step_cases hstep
  · exact (h.of_host s.host ts s.responses).engineStep
  · exact (h.of_host s.host ts s.responses).accessTurn haccess
  · exact (h.of_host ops ts (.write .okay :: s.responses)).runWord hrun
  · exact resetBlock_inv h.cfgWf

/-- Settles O42: the state after reset is a block right after `rst` with legal parameters. -/
theorem resetMeetsInvariant : Obligations.ResetMeetsInvariant :=
  resetBlock_inv (s := State.reset) (by decide)

end Sys2Proof.Machine
end

section
/-! Proofs: the register window, its gating while BUSY and what no access shows (10_state.md R33, R40, R43,
R47, R54; 20_memory.md R84 to R86). -/

namespace Sys2Proof.Machine

/-- A register that exists is decoded at its offset (10_state.md R33). -/
theorem decodeOffset_regOffset {c : Config} {r : HostReg} (h : r.wf c = true) :
    decodeOffset c (regOffset r) = some r := by
  cases r with
  | kek w => exact decodeOffset_kek (of_decide_eq_true h)
  | buf k =>
    have hk : k < c.bufBytes / 4 := of_decide_eq_true h
    exact decodeOffset_buf (by omega)
  | _ => rfl

/-- What an offset decodes to exists and has that offset (10_state.md R33; 20_memory.md R84). -/
theorem wf_and_regOffset_of_decodeOffset {c : Config} {off : Nat} {r : HostReg}
    (h : decodeOffset c off = some r) : r.wf c = true ∧ regOffset r = off := by
  obtain ⟨-, hoff, hkek, hbuf⟩ := busTarget_some (w := .w32) h
  refine ⟨?_, hoff.symm⟩
  cases r with
  | kek w => exact decide_eq_true (hkek w rfl)
  | buf k =>
    have hk := hbuf k rfl
    exact decide_eq_true (by omega)
  | _ => rfl

/-- Settles O4: the decoder inverts the register map, and what it gives exists. -/
theorem registerMapIsOneToOne : Obligations.RegisterMapIsOneToOne :=
  fun _ => ⟨fun _ => decodeOffset_regOffset, fun _ _ => wf_and_regOffset_of_decodeOffset⟩

/-- A 32-bit write at the offset of a register that exists reaches it (20_memory.md R86). -/
theorem busWrite_regOffset {s : State} {r : HostReg} (h : r.wf s.cfg = true) (v : Word) :
    busWrite s .w32 (regOffset r) v = (.okay, s.writeReg r v) := by
  simp only [busWrite, busTarget, decodeOffset_regOffset h]

/-- A 32-bit read at the offset of a register that exists returns its value (20_memory.md R85). -/
theorem busRead_regOffset {s : State} {r : HostReg} (h : r.wf s.cfg = true) :
    busRead s .w32 (regOffset r) = (.okay, s.readReg r) := by
  simp only [busRead, busTarget, decodeOffset_regOffset h]

/-- While BUSY a write to a gated register is dropped (10_state.md R43). -/
theorem writeReg_of_busyGated {s : State} {r : HostReg} (hb : s.status.busy = true)
    (hr : busyGated r = true) (v : Word) : s.writeReg r v = s := by
  cases r with
  | ctrl | status | outLen | caps => cases hr
  | cmd | kekLen | dataLen | kek | buf => exact if_pos hb

/-- A command run in one step is its word written and run. -/
theorem exec_eq_runWord (i : Instr) (s : State) : exec i s = runWord (encode i) s := by
  rw [runWord, decode_encode]

/-- A command word written to a busy block is dropped (10_state.md R43). -/
theorem runWord_of_busy {s : State} (hb : s.status.busy = true) (v : Word) : runWord v s = .next s := by
  rw [runWord_eq, if_pos (.inl hb)]

theorem exec_of_busy {s : State} (hb : s.status.busy = true) (i : Instr) : exec i s = .next s := by
  rw [exec_eq_runWord, runWord_of_busy hb]

/-- Settles O32: each of the five offsets is that of a gated register. -/
theorem busyGatesWrites : Obligations.BusyGatesWrites := by
  intro s v hb
  have gated {r : HostReg} (hwf : r.wf s.cfg = true) (hr : busyGated r = true) :
      busWrite s .w32 (regOffset r) v = (.okay, s) := by
    rw [busWrite_regOffset hwf, writeReg_of_busyGated hb hr]
  refine ⟨?_, exec_of_busy hb, busWrite_regOffset (r := .ctrl) rfl v, ?_⟩
  · rintro off (rfl | rfl | rfl | ⟨w, hw, rfl⟩ | ⟨k, hk, rfl⟩)
    · exact gated (r := .cmd) rfl rfl
    · exact gated (r := .kekLen) rfl rfl
    · exact gated (r := .dataLen) rfl rfl
    · exact gated (r := .kek w) (decide_eq_true hw) rfl
    · exact gated (r := .buf k) (decide_eq_true (by rw [Config.bufBytes]; omega)) rfl
  · rw [← Status.writeW1C_eq]
    exact busWrite_regOffset (r := .status) rfl v

/-! ### CAPS -/

theorem bit_getLsbD (b : Bool) (k : Nat) : (bit b).getLsbD k = (b && decide (k = 0)) := by
  cases b with
  | false => simp [bit]
  | true => simp [bit, BitVec.getLsbD_one]

/-- CAPS bit by bit (10_state.md R47). -/
theorem capsWord_getLsbD (c : Config) {k : Nat} (hk : k < 32) :
    (capsWord c).getLsbD k =
      if k < 24 then c.nMax.testBit k
      else if k = 24 then c.allowSingleBlock else decide (k = 25) && c.padZeroCheck := by
  simp only [capsWord, BitVec.getLsbD_or, BitVec.getLsbD_shiftLeft, bit_getLsbD,
    BitVec.truncate_eq_setWidth, BitVec.getLsbD_setWidth, BitVec.getLsbD_ofNat, hk, decide_true,
    Bool.true_and]
  rcases (by omega : k < 24 ∨ k = 24 ∨ k = 25 ∨ 25 < k) with h | rfl | rfl | h
  · have h1 : k < 25 := by omega
    simp [h, h1]
  · simp
  · simp
  · have hlt : ¬ k < 24 := by omega
    have h24 : k ≠ 24 ∧ k - 24 ≠ 0 := by omega
    have h25 : k ≠ 25 ∧ k - 25 ≠ 0 := by omega
    simp [hlt, h24, h25]

/-- The N_MAX field of CAPS (10_state.md R47). -/
theorem capsWord_nMax {c : Config} (h : c.wf = true) :
    ((capsWord c).extractLsb' 0 24).toNat = c.nMax := by
  have hlt : c.nMax < 2 ^ 24 := by
    simp only [Config.wf, Bool.and_eq_true, decide_eq_true_eq] at h
    omega
  have hfield : (capsWord c).extractLsb' 0 24 = BitVec.ofNat 24 c.nMax := by
    apply BitVec.eq_of_getLsbD_eq
    intro k hk
    rw [BitVec.getLsbD_extractLsb', BitVec.getLsbD_ofNat, Nat.zero_add, capsWord_getLsbD c (by omega),
      if_pos hk]
  rw [hfield, BitVec.toNat_ofNat, Nat.mod_eq_of_lt hlt]

/-- The reserved bits of CAPS are zero (10_state.md R47). -/
theorem capsWord_reserved (c : Config) : (capsWord c).extractLsb' 26 6 = 0 := by
  apply BitVec.eq_of_getLsbD_eq
  intro k hk
  rw [BitVec.getLsbD_extractLsb', capsWord_getLsbD c (by omega), if_neg (by omega), if_neg (by omega),
    decide_eq_false (by omega : 26 + k ≠ 25)]
  simp

/-- No write changes the parameters. -/
@[simp] theorem busWrite_cfg (s : State) (w : Width) (off : Nat) (v : Word) :
    (busWrite s w off v).2.cfg = s.cfg := by
  rcases busWrite_cases s w off v with
    heq | heq | ⟨-, -, heq⟩ | ⟨-, ⟨-, -, heq⟩ | heq | heq | ⟨k, -, heq⟩ | ⟨k, -, heq⟩⟩ <;>
    simp [heq]

@[simp] theorem engineStep_cfg (s : State) : (engineStep s).cfg = s.cfg := by
  rcases engineStep_cases s with ⟨-, hstep⟩ | ⟨r, -, hstep⟩ | ⟨-, -, hsame, -⟩
  · rw [hstep]
  · rw [hstep, State.finish_cfg]
  · exact hsame.cfg_eq

theorem accessTurn_cfg {s t : State} (h : accessTurn s = .next t) : t.cfg = s.cfg := by
  rcases accessTurn_cases h with ⟨hs, rs, rfl⟩ | ⟨w, off, v, ops, -, rfl⟩
  · rfl
  · exact busWrite_cfg { s with host := ops } w off v

theorem runWord_cfg {v : Word} {s t : State} (h : runWord v s = .next t) : t.cfg = s.cfg := by
  rw [runWord_eq, Host.Outcome.next.injEq] at h
  rw [← h]
  split
  · rfl
  · rw [State.finish_cfg, State.accept_cfg]

/-- No step of the machine changes the parameters, reset included (00_scope.md R8; log 1). -/
theorem step_cfg {s t : State} (h : step s = .next t) : t.cfg = s.cfg := by
  obtain ⟨ts, -, rfl | haccess | ⟨v, ops, -, hrun⟩ | ⟨-, rfl⟩⟩ := step_cases h
  · exact engineStep_cfg _
  · exact (accessTurn_cfg haccess :)
  · exact (runWord_cfg hrun :)
  · rfl

theorem busRead_caps (s : State) : busRead s .w32 0x018 = (.okay, capsWord s.cfg) :=
  busRead_regOffset (r := .caps) rfl

/-- Settles O34: CAPS is a function of the parameters, which no step changes. -/
theorem capsIsConstant : Obligations.CapsIsConstant := by
  refine ⟨fun s h => ⟨_, busRead_caps s, capsWord_nMax h, ?_, ?_, capsWord_reserved s.cfg⟩,
    fun s v => busWrite_regOffset (r := .caps) rfl v, fun s t h => ?_⟩
  · rw [capsWord_getLsbD s.cfg (by omega), if_neg (by omega), if_pos rfl]
  · rw [capsWord_getLsbD s.cfg (by omega), if_neg (by omega), if_neg (by omega), decide_eq_true rfl,
      Bool.true_and]
  · have hcfg := step_cfg h
    exact ⟨hcfg, by rw [busRead_caps, busRead_caps, hcfg]⟩

/-! ### What an access shows, and the values at reset -/

/-- The response of a write depends on the address map only (20_memory.md R86). -/
theorem busWrite_response (s : State) (w : Width) (off : Nat) (v : Word) :
    (busWrite s w off v).1 = if (busTarget s.cfg w off).isSome then .okay else .busError := by
  unfold busWrite
  cases busTarget s.cfg w off <;> rfl

/-- Settles O36: the address map is that of the parameters, and no register reads from the hidden
elements. -/
theorem hiddenStateIsUnreadable : Obligations.HiddenStateIsUnreadable := by
  intro s kekb snap work phase j i w off v
  refine ⟨?_, by rw [busWrite_response, busWrite_response]⟩
  unfold busRead
  cases busTarget s.cfg w off with
  | none => rfl
  | some r => cases r <;> rfl

/-- Settles O40: each element by its own field of the reset state. -/
theorem resetValues : Obligations.ResetValues :=
  ⟨rfl, rfl, rfl, rfl, rfl, busRead_caps State.reset, fun _ => rfl, fun _ => rfl, rfl, rfl, rfl, rfl, rfl,
    rfl, rfl⟩

end Sys2Proof.Machine
end

section
/-! Proofs: a command reads its operands and no more, and its run phase by phase ends where its one-step run
does (10_state.md R40, R51, R52; 42_commands.md R224, R236). -/

namespace Sys2Proof.Machine

theorem operandError_congr {f : Config → Nat → Bool} {c : Config} {q q' : Snapshot}
    (hklen : q'.klen = q.klen) (hlen : q'.length = q.length) :
    operandError f c q' = operandError f c q := by
  rw [operandError, operandError, hklen, hlen]

/-- `Execute` reads the accepted word, the lengths, the key and the input, and nothing else of the snapshot
(42_commands.md R224). -/
theorem execute_congr {c : Config} {q q' : Snapshot} (hword : q'.word = q.word) (hklen : q'.klen = q.klen)
    (hlen : q'.length = q.length) (hkey : q'.key = q.key) (hinput : q'.input = q.input) :
    execute c q' = execute c q := by
  have hop (f : Config → Nat → Bool) := operandError_congr (f := f) (c := c) hklen hlen
  rw [execute, execute, hword]
  cases decode q.word with
  | illegal why => rfl
  | command i =>
    cases i with
    | nop => rfl
    | wrap => simp only [commandResult, wrapResult, hop, hkey, hinput]
    | unwrap => simp only [commandResult, unwrapResult, hop, hkey, hinput]
    | wrapPad => simp only [commandResult, wrapPadResult, hop, hkey, hinput]
    | unwrapPad => simp only [commandResult, unwrapPadResult, hop, hkey, hinput]

/-- FINISH of an accepted command leaves nothing of the buffer and the key file it was accepted with
(42_commands.md R226). -/
theorem finish_accept_overwrites (r : CmdResult) {v : Word} (hv : v ≠ 0) (s : State) (buf kekb : Memory) :
    (State.accept v { s with buf := buf, kekb := kekb }).finish r = (s.accept v).finish r := by
  rw [State.accept_of_ne v _ hv, State.accept_of_ne v _ hv]
  cases r <;> rfl

/-- Settles O17: the key and the input in the snapshot are the same bytes, and FINISH overwrites the rest. -/
theorem bytesBeyondOperandsIgnored : Obligations.BytesBeyondOperandsIgnored := by
  intro s i buf kekb hi hb hbuf hkekb
  have hexec : execute s.cfg (State.takeSnapshot (encode i) { s with buf := buf, kekb := kekb }) =
      execute s.cfg (s.takeSnapshot (encode i)) := by
    refine execute_congr (by simp) rfl rfl ?_ ?_
    · exact Memory.readBytes_congr fun a _ ha => hkekb a (by simpa using ha)
    · exact Memory.readBytes_congr fun a _ ha => hbuf a (by simpa [Snapshot.length] using ha)
  rw [exec_of_idle (s := { s with buf := buf, kekb := kekb }) hi hb, exec_of_idle hi hb, hexec,
    finish_accept_overwrites _ (encode_ne_zero hi)]

/-- A word other than 0 run in one step by a block that is not busy ends as the engine's run of it does. -/
theorem runWord_of_reaches {s : State} {v : Word} {m c : Nat} (hb : s.status.busy = false) (hv : v ≠ 0)
    (h : Reaches (s.accept v) m (execute s.cfg (s.takeSnapshot v)) c) :
    runWord v s = .next (engineRun (m + 1) (s.accept v)) := by
  rw [runWord_eq, if_neg (not_or.mpr ⟨by simp [hb], hv⟩), engineRun_of_reaches h]

/-- Until the last step of a command's run the engine is not idle, and has written only the working
registers and the sequencer (10_state.md R52). -/
theorem Reaches.before_finish {s : State} {m c : Nat} {r : CmdResult} (h : Reaches s m r c) {k : Nat}
    (hk : k ≤ m) : SameButWork s (engineRun k s) ∧ (engineRun k s).phase ≠ .idle := by
  refine ⟨engineRun_sameButWork fun l hl => h.inside l (by omega), ?_⟩
  rcases hk.lt_or_eq with hlt | rfl
  · exact (h.inside k hlt).1
  · simp [h.finish]

/-- Settles O23: the run from acceptance reaches FINISH, and one more step gives what the command gives. -/
theorem phasedEngineMatchesCommand : Obligations.PhasedEngineMatchesCommand := by
  intro s v hv hb
  obtain ⟨m, c, hreach⟩ := reaches_accept hv s
  have hrun := runWord_of_reaches hb hv hreach
  refine ⟨m + 1, by omega, fun i hd => ?_, fun why hd => ?_, fun k hk => ?_⟩
  · rwa [exec_eq_runWord, ← eq_encode_of_decode hd]
  · rw [runWord, hd] at hrun
    exact Host.Outcome.next.inj hrun
  · obtain ⟨hsame, hphase⟩ := hreach.before_finish (Nat.le_of_lt_succ hk)
    refine ⟨?_, ?_, ?_, hphase⟩ <;> rw [hsame, s.accept_of_ne v hv]
    rfl

end Sys2Proof.Machine
end

section
/-! Proofs: which steps change the flags, and what the host's turns change while a command runs (10_state.md
R30, R36, R43, R44, R52; 20_memory.md R92). -/

namespace Sys2Proof.Machine

/-! ### The events that change the flags -/

/-- The block right after a completion: idle, with the key cleared and the flags of R226. -/
def State.Completed (t : State) : Prop :=
  t.phase = .idle ∧ t.kekb = [] ∧ ∃ e, t.status = .completed e

theorem finish_completed (r : CmdResult) (s : State) : (s.finish r).Completed :=
  ⟨s.finish_phase r, s.finish_kekb r, r.errCode, by cases r <;> rfl⟩

/-- What one step other than reset does to the flags: the rows of 10_state.md R44's table. -/
inductive FlagEvent (s t : State) : Prop
  | unchanged (ht : t.status = s.status)
  | finish (r : CmdResult) (hp : s.phase = .finish r) (ht : t.Completed)
  | accept (v : Word) (ops : List HostOp) (hs : s.host = .write .w32 0x004 v :: ops) (hv : v ≠ 0)
      (hb : s.status.busy = false) (ht : t.status = .accepted)
  | run (v : Word) (ops : List HostOp) (hs : s.host = .write .w32 0x004 v :: ops) (hv : v ≠ 0)
      (hb : s.status.busy = false) (ht : t.Completed)
  | acknowledge (v : Word) (ops : List HostOp) (hs : s.host = .write .w32 0x008 v :: ops)
      (hv : v.getLsbD 1 = true) (ht : t.status = { s.status with done := false })

theorem engineStep_flagEvent (s : State) : FlagEvent s (engineStep s) := by
  rcases engineStep_cases s with ⟨-, heq⟩ | ⟨r, hp, heq⟩ | ⟨-, -, hsame, -⟩
  · exact .unchanged (by rw [heq])
  · exact .finish r hp (heq ▸ finish_completed r s)
  · exact .unchanged (by rw [hsame])

/-- What a write does to STATUS: nothing, the W1C of DONE, or acceptance (10_state.md R36; 42_commands.md
R220). -/
theorem busWrite_status_cases (s : State) (w : Width) (off : Nat) (v : Word) :
    (busWrite s w off v).2.status = s.status ∨
      (w = .w32 ∧ off = 0x008 ∧ v.getLsbD 1 = true ∧
        (busWrite s w off v).2.status = { s.status with done := false }) ∨
      (w = .w32 ∧ off = 0x004 ∧ v ≠ 0 ∧ s.status.busy = false ∧
        (busWrite s w off v).2.status = .accepted) := by
  rcases busWrite_cases s w off v with
    heq | heq | ⟨hw, hoff, heq⟩ | ⟨hb, ⟨hw, hoff, heq⟩ | heq | heq | ⟨k, -, heq⟩ | ⟨k, -, heq⟩⟩
  · exact .inl (by rw [heq])
  · exact .inl (by rw [heq])
  · rw [heq]
    cases hv : v.getLsbD 1 with
    | false => exact .inl (if_neg (Bool.not_eq_true _ ▸ hv))
    | true => exact .inr (.inl ⟨hw, hoff, rfl, if_pos hv⟩)
  · rw [heq]
    by_cases hv : v = 0
    · exact .inl (by subst hv; rfl)
    · exact .inr (.inr ⟨hw, hoff, hv, hb, by rw [s.accept_of_ne v hv]⟩)
  all_goals exact .inl (by rw [heq])

theorem accessTurn_flagEvent {s t : State} (h : accessTurn s = .next t) : FlagEvent s t := by
  rcases accessTurn_cases h with ⟨hs, rs, rfl⟩ | ⟨w, off, v, ops, hs, rfl⟩
  · exact .unchanged rfl
  rcases busWrite_status_cases { s with host := ops } w off v with
    ht | ⟨rfl, rfl, hv, ht⟩ | ⟨rfl, rfl, hv, hb, ht⟩
  · exact .unchanged ht
  · exact .acknowledge v ops hs hv ht
  · exact .accept v ops hs hv hb ht

theorem runWord_flagEvent {s t : State} {v : Word} {ops : List HostOp} {ts : List Turn}
    (hs : s.host = .write .w32 (regOffset .cmd) v :: ops)
    (h : runWord v (State.record (.write .okay) { s with turns := ts, host := ops }) = .next t) :
    FlagEvent s t := by
  rw [runWord_eq, Host.Outcome.next.injEq] at h
  split at h
  · exact .unchanged (by rw [← h]; rfl)
  · rename_i hv
    rw [not_or, Bool.not_eq_true] at hv
    exact .run v ops hs hv.2 hv.1 (h ▸ finish_completed _ _)

/-- Who moves next does not matter for what the move does to the flags. -/
theorem FlagEvent.of_turns {s t : State} {ts : List Turn} (h : FlagEvent { s with turns := ts } t) :
    FlagEvent s t := by
  cases h with
  | unchanged ht => exact .unchanged ht
  | finish r hp ht => exact .finish r hp ht
  | accept v ops hs hv hb ht => exact .accept v ops hs hv hb ht
  | run v ops hs hv hb ht => exact .run v ops hs hv hb ht
  | acknowledge v ops hs hv ht => exact .acknowledge v ops hs hv ht

/-- Everything a step can do to the flags (10_state.md R44; 70_reset_and_hazards.md R300). -/
theorem step_flagEvent {s t : State} (h : step s = .next t) :
    FlagEvent s t ∨ s.turns.head? = some .reset ∧
      t.status = { busy := false, done := false, err := .none } := by
  obtain ⟨ts, -, rfl | haccess | ⟨v, ops, hs, hrun⟩ | ⟨hs, rfl⟩⟩ := step_cases h
  · exact .inl (engineStep_flagEvent _).of_turns
  · exact .inl (accessTurn_flagEvent haccess).of_turns
  · exact .inl (runWord_flagEvent hs hrun)
  · exact .inr ⟨by rw [hs]; rfl, rfl⟩

/-- Settles O44: each row of the table, for each event that a step can be. -/
theorem flagsChangeOnlyAsTabulated : Obligations.FlagsChangeOnlyAsTabulated := by
  intro s t h
  rcases step_flagEvent h with hev | ⟨hreset, ht⟩
  · cases hev with
    | unchanged ht => simp +contextual [ht]
    | finish r hp ht =>
      obtain ⟨hphase, hkekb, e, ht⟩ := ht
      simp [ht, hphase, hkekb, hp]
    | accept v ops hs hv hb ht =>
      have hv : ¬v = 0#32 := hv
      simp [ht, hb, hs, hv]
    | run v ops hs hv hb ht =>
      obtain ⟨hphase, hkekb, e, ht⟩ := ht
      have hv : ¬v = 0#32 := hv
      simp [ht, hphase, hkekb, hb, hs, hv]
    | acknowledge v ops hs hv ht => simp +contextual [ht, hs, hv]
  · simp [ht, hreset]

/-! ### What the host can do while a command runs -/

/-- The state with the host's part of another: CTRL.IE, DONE, the host's program, the schedule and the
record. -/
def State.withHost (s h : State) : State :=
  { s with
    ie := h.ie, status := { s.status with done := h.status.done }, host := h.host, turns := h.turns
    responses := h.responses }

/-- A turn of the host that leaves a running command alone: it changes only the host's part, keeps the
schedule, and sets no DONE. -/
structure HostOnly (s t : State) : Prop where
  eq : t = s.withHost t
  turns : t.turns = s.turns
  done : s.status.done = false → t.status.done = false

/-- A write to a busy block changes CTRL.IE or clears DONE, and nothing else (10_state.md R43). -/
theorem busWrite_hostOnly {s : State} (hb : s.status.busy = true) (w : Width) (off : Nat) (v : Word) :
    HostOnly s (busWrite s w off v).2 := by
  rcases busWrite_cases s w off v with heq | heq | ⟨-, -, heq⟩ | ⟨hb', -⟩
  · rw [heq]
    exact ⟨rfl, rfl, id⟩
  · rw [heq]
    exact ⟨rfl, rfl, id⟩
  · rw [heq, Status.writeW1C_eq]
    exact ⟨rfl, rfl, fun hd => by simp [hd]⟩
  · simp [hb] at hb'

theorem accessTurn_hostOnly {s t : State} (hb : s.status.busy = true) (h : accessTurn s = .next t) :
    HostOnly s t := by
  rcases accessTurn_cases h with ⟨hs, rs, rfl⟩ | ⟨w, off, v, ops, -, rfl⟩
  · exact ⟨rfl, rfl, id⟩
  · obtain ⟨heq, hturns, hdone⟩ := busWrite_hostOnly (s := { s with host := ops }) hb w off v
    generalize (busWrite { s with host := ops } w off v).2 = u at *
    refine ⟨?_, hturns, hdone⟩
    rw [heq]
    rfl

theorem runWord_hostOnly {s t : State} {v : Word} {a : Response} {ops : List HostOp}
    (hb : s.status.busy = true) (h : runWord v (State.record a { s with host := ops }) = .next t) :
    HostOnly s t := by
  have hdrop := runWord_of_busy (s := State.record a { s with host := ops }) hb v
  cases hdrop.symm.trans h
  exact ⟨rfl, rfl, id⟩

theorem commandTurn_hostOnly {s t : State} (hb : s.status.busy = true) (h : commandTurn s = .next t) :
    HostOnly s t := by
  rcases commandTurn_cases h with h | ⟨v, ops, -, h⟩
  · exact accessTurn_hostOnly hb h
  · exact runWord_hostOnly hb h

/-- Settles O45: the engine writes only its own registers before FINISH, and a write of the host finds DONE
at 0. -/
theorem outputChangesOnlyAtFinish : Obligations.OutputChangesOnlyAtFinish := by
  intro s t hinv hphase hstep hreset hfinish
  have hb := hinv.busyIff.mpr hphase
  obtain ⟨hdone, -⟩ := hinv.busyClear hb
  have of_hostOnly {ts : List Turn} (h : HostOnly { s with turns := ts } t) :
      t.status = s.status ∧ t.outLen = s.outLen ∧ t.buf = s.buf ∧ t.kekb = s.kekb ∧
        t.kekLen = s.kekLen ∧ t.dataLen = s.dataLen ∧ t.snap = s.snap ∧ t.phase ≠ .idle := by
    obtain ⟨heq, -, hd⟩ := h
    have hd := hd hdone
    rw [heq]
    refine ⟨?_, rfl, rfl, rfl, rfl, rfl, rfl, hphase⟩
    simp only [State.withHost, hd, ← hdone]
  obtain ⟨ts, -, rfl | haccess | ⟨v, ops, -, hrun⟩ | ⟨hts, -⟩⟩ := step_cases hstep
  · rcases engineStep_cases { s with turns := ts } with ⟨hp, -⟩ | ⟨r, hp, -⟩ | ⟨-, -, hsame, hp⟩
    · exact absurd hp hphase
    · exact absurd hp (hfinish r)
    · refine ⟨?_, ?_, ?_, ?_, ?_, ?_, ?_, hp⟩ <;> rw [hsame]
  · exact of_hostOnly (accessTurn_hostOnly (s := { s with turns := ts }) hb haccess)
  · exact of_hostOnly (runWord_hostOnly (s := { s with turns := ts }) hb hrun)
  · exact absurd (by rw [hts]; rfl) hreset

end Sys2Proof.Machine
end

section
/-! Proofs: the schedule of the host's turns does not change what a command leaves (10_state.md R30, R43;
20_memory.md R92; 42_commands.md R227). -/

namespace Sys2Proof.Machine

/-! ### The engine does not read the host's part of the state -/

theorem withHost_busy (s h : State) : (s.withHost h).status.busy = s.status.busy := rfl

theorem withHost_self_withHost (s h : State) : s.withHost (s.withHost h) = s.withHost h := rfl

theorem checkOperands_withHost (f : Config → Nat → Bool) {start : State → State}
    (hstart : ∀ s h : State, start (s.withHost h) = (start s).withHost h) (s h : State) :
    (s.withHost h).checkOperands f start = (s.checkOperands f start).withHost h := by
  have hcheck : operandError f (s.withHost h).cfg (s.withHost h).snap = operandError f s.cfg s.snap := rfl
  rw [State.checkOperands, State.checkOperands, hcheck]
  cases operandError f s.cfg s.snap with
  | some e => rfl
  | none => exact hstart s h

theorem startWrapPadCommand_withHost (s h : State) :
    (s.withHost h).startWrapPadCommand = s.startWrapPadCommand.withHost h := by
  have hinput : (s.withHost h).snap.input = s.snap.input := rfl
  rw [State.startWrapPadCommand, State.startWrapPadCommand, hinput]
  split <;> rfl

theorem startUnwrapPadCommand_withHost (s h : State) :
    (s.withHost h).startUnwrapPadCommand = s.startUnwrapPadCommand.withHost h := by
  have hinput : (s.withHost h).snap.input = s.snap.input := rfl
  rw [State.startUnwrapPadCommand, State.startUnwrapPadCommand, hinput]
  split <;> rfl

theorem check_withHost (s h : State) : (s.withHost h).check = s.check.withHost h := by
  have hword : (s.withHost h).snap.word = s.snap.word := rfl
  rw [State.check, State.check, hword]
  cases decode s.snap.word with
  | illegal why => rfl
  | command i =>
    cases i with
    | nop => rfl
    | wrap => exact checkOperands_withHost _ (fun _ _ => rfl) s h
    | unwrap => exact checkOperands_withHost _ (fun _ _ => rfl) s h
    | wrapPad => exact checkOperands_withHost _ startWrapPadCommand_withHost s h
    | unwrapPad => exact checkOperands_withHost _ startUnwrapPadCommand_withHost s h

theorem wrapPhase_withHost (s h : State) : (s.withHost h).wrapPhase = s.wrapPhase.withHost h := by
  unfold State.wrapPhase
  by_cases hi : s.i < s.snap.blocks
  · simp [State.withHost, hi]
  · by_cases hj : s.j < 5 <;> simp [State.withHost, hi, hj]

theorem unwrapPhase_withHost (s h : State) : (s.withHost h).unwrapPhase = s.unwrapPhase.withHost h := by
  unfold State.unwrapPhase
  by_cases hi : 1 < s.i
  · simp [State.withHost, hi]
  · by_cases hj : 0 < s.j <;> simp [State.withHost, hi, hj]

theorem verifyPhase_withHost (s h : State) : (s.withHost h).verifyPhase = s.verifyPhase.withHost h := by
  have hword : (s.withHost h).snap.word = s.snap.word := rfl
  rw [State.verifyPhase, State.verifyPhase, hword]
  cases decode s.snap.word with
  | illegal why => rfl
  | command i => cases i <;> rfl

/-- Before FINISH the engine neither reads nor writes the host's part of the state. -/
theorem engineStep_withHost {s : State} (hs : ∀ r, s.phase ≠ .finish r) (h : State) :
    engineStep (s.withHost h) = (engineStep s).withHost h := by
  have hphase : (s.withHost h).phase = s.phase := rfl
  rw [engineStep, engineStep, hphase]
  cases hp : s.phase with
  | idle | shortEnc | shortDec => rfl
  | check => exact check_withHost s h
  | wrapStep => exact wrapPhase_withHost s h
  | unwrapStep => exact unwrapPhase_withHost s h
  | verify => exact verifyPhase_withHost s h
  | finish r => exact absurd hp (hs r)

theorem engineStep_of_finish {s : State} {r : CmdResult} (hp : s.phase = .finish r) :
    engineStep s = s.finish r := by
  rw [engineStep, hp]

/-- FINISH writes DONE whatever it was, and leaves the rest of the host's part alone (42_commands.md R226). -/
theorem engineStep_withHost_of_finish {s : State} {r : CmdResult} (hp : s.phase = .finish r) (h : State) :
    engineStep (s.withHost h) = { engineStep s with
      ie := h.ie, host := h.host, turns := h.turns, responses := h.responses } := by
  have hp' : (s.withHost h).phase = .finish r := hp
  rw [engineStep_of_finish hp, engineStep_of_finish hp']
  cases r <;> rfl

/-- A step of the engine that ends a busy state is FINISH. -/
theorem finish_of_engineStep_busy {s : State} (hb : s.status.busy = true)
    (hb' : (engineStep s).status.busy = false) : ∃ r, s.phase = .finish r := by
  rcases engineStep_cases s with ⟨-, heq⟩ | ⟨r, hp, -⟩ | ⟨-, -, hsame, -⟩
  · rw [heq, hb] at hb'
    cases hb'
  · exact ⟨r, hp⟩
  · rw [hsame] at hb'
    exact absurd (hb.symm.trans hb') (by simp)

theorem not_finish_of_engineStep_busy {s : State} (hb : (engineStep s).status.busy = true)
    (r : CmdResult) : s.phase ≠ .finish r := by
  intro hp
  rw [engineStep_of_finish hp] at hb
  cases r <;> cases hb

/-! ### Runs of the machine under a schedule -/

theorem runSteps_succ {k : Nat} {s u : State} (h : runSteps (k + 1) s = .next u) :
    ∃ t, step s = .next t ∧ runSteps k t = .next u := by
  rw [runSteps] at h
  cases hs : step s with
  | next t => exact ⟨t, rfl, by rwa [hs] at h⟩
  | fault f => rw [hs] at h; cases h
  | refused r => rw [hs] at h; cases h

theorem step_of_turns {s : State} {x : Turn} {ts : List Turn} (h : s.turns = x :: ts) :
    step s = takeTurn x { s with turns := ts } := by
  rw [step, h]

/-- Two states that differ in the host's part go on to do so when a turn is taken from the schedule. -/
theorem withHost_turns {s t : State} (h : t = s.withHost t) (ts : List Turn) :
    ({ t with turns := ts } : State) = s.withHost { t with turns := ts } :=
  congrArg (fun t : State => { t with turns := ts }) h

theorem takeTurn_hostOnly {s t : State} {x : Turn} (hx : x = .access ∨ x = .command)
    (hb : s.status.busy = true) (h : takeTurn x s = .next t) : HostOnly s t := by
  rcases hx with rfl | rfl
  · exact accessTurn_hostOnly hb h
  · exact commandTurn_hostOnly hb h

/-- A run under a schedule of engine turns and host turns, from a state that has the block's part of `s`, ends
with the block's part of the engine's run from `s`: each host turn keeps it, and each engine turn moves it as
the engine alone does. -/
theorem runSteps_schedule {us : List Turn} {s t u : State}
    (hus : ∀ x ∈ us, x = .engine ∨ x = .access ∨ x = .command) (hst : t = s.withHost t)
    (hturns : t.turns = us ++ [.engine])
    (hbusy : ∀ k ≤ us.count .engine, (engineRun k s).status.busy = true)
    (hdone : (engineRun (us.count .engine + 1) s).status.busy = false)
    (hrun : runSteps (us.length + 1) t = .next u) :
    u = { engineRun (us.count .engine + 1) s with
      ie := u.ie, host := u.host, turns := [], responses := u.responses } := by
  induction us generalizing s t with
  | nil =>
    obtain ⟨r, hp⟩ := finish_of_engineStep_busy (s := s) (hbusy 0 le_rfl) hdone
    obtain ⟨t', hstep, hu⟩ := runSteps_succ hrun
    rw [step_of_turns hturns, withHost_turns hst] at hstep
    cases hu
    cases hstep
    rw [engineStep_withHost_of_finish hp]
    rfl
  | cons x us ih =>
    obtain ⟨t', hstep, hrun⟩ := runSteps_succ hrun
    rw [step_of_turns hturns, withHost_turns hst] at hstep
    have hus' : ∀ y ∈ us, y = .engine ∨ y = .access ∨ y = .command :=
      fun y hy => hus y (List.mem_cons_of_mem x hy)
    rcases hus x List.mem_cons_self with rfl | hx
    · rw [List.count_cons_self] at hbusy hdone ⊢
      have hnf := not_finish_of_engineStep_busy (s := s) (hbusy 1 (by omega))
      cases hstep
      refine ih hus' ?_ ?_ (fun k hk => hbusy (k + 1) (by omega)) hdone hrun
      · rw [engineStep_withHost hnf, withHost_self_withHost]
      · rw [engineStep_withHost hnf]
        rfl
    · have hne : x ≠ .engine := by rcases hx with rfl | rfl <;> simp
      rw [List.count_cons_of_ne hne] at hbusy hdone ⊢
      obtain ⟨heq, htt, -⟩ :=
        takeTurn_hostOnly hx ((withHost_busy s _).trans (hbusy 0 (Nat.zero_le _))) hstep
      exact ih hus' heq htt hbusy hdone hrun

/-- Settles O46: the scheduled run starts with the block's part of `s`. -/
theorem scheduleDoesNotChangeResult : Obligations.ScheduleDoesNotChangeResult := by
  intro s u n us hbusy hdone hus hcount hrun
  subst hcount
  exact runSteps_schedule hus rfl rfl hbusy hdone hrun

end Sys2Proof.Machine
end

section
/-! Proofs: the value of each register read, the effect of each write, and bus errors (20_memory.md R80 to
R87). -/

namespace Sys2Proof.Machine

/-! ### Fields and bytes of a word -/

/-- A field of `k` bits beside a higher one. -/
theorem shiftLeft_or_ofNat {w a b k : Nat} (h : b < 2 ^ k) :
    BitVec.ofNat w a <<< k ||| BitVec.ofNat w b = BitVec.ofNat w (2 ^ k * a + b) := by
  have hshift : BitVec.ofNat w a <<< k = BitVec.ofNat w (2 ^ k * a) := by
    apply BitVec.eq_of_toNat_eq
    simp [Nat.shiftLeft_eq, mul_comm]
  rw [hshift, ← BitVec.ofNat_or, Nat.two_pow_add_eq_or_of_lt h]

theorem bit_eq_ofNat (b : Bool) : bit b = BitVec.ofNat 32 b.toNat := by cases b <;> rfl

/-- STATUS as a number (10_state.md R36). -/
theorem Status.word_eq_ofNat (st : Status) :
    st.word = BitVec.ofNat 32 (16 * st.err.code.toNat + 2 * st.done.toNat + st.busy.toNat) := by
  have hdone := st.done.toNat_lt
  have hbusy := st.busy.toNat_lt
  rw [Status.word, BitVec.zeroExtend, ← BitVec.ofNat_toNat, bit_eq_ofNat, bit_eq_ofNat, BitVec.or_assoc,
    shiftLeft_or_ofNat (by omega), shiftLeft_or_ofNat (by omega), Nat.add_assoc]
  rfl

/-- CAPS as a number (10_state.md R47). -/
theorem capsWord_eq_ofNat {c : Config} (h : c.nMax < 2 ^ 24) :
    capsWord c = BitVec.ofNat 32
      (2 ^ 25 * c.padZeroCheck.toNat + 2 ^ 24 * c.allowSingleBlock.toNat + c.nMax) := by
  have hsingle := c.allowSingleBlock.toNat_lt
  rw [capsWord, BitVec.zeroExtend, BitVec.setWidth_ofNat_of_le_of_lt (by omega) h, bit_eq_ofNat,
    bit_eq_ofNat, BitVec.or_assoc, shiftLeft_or_ofNat h, shiftLeft_or_ofNat (by omega), Nat.add_assoc]

/-- A word of a byte array as a number (20_memory.md R80). -/
theorem Memory.readWord_eq_ofNat (m : Memory) (k : Nat) :
    m.readWord k = BitVec.ofNat 32
      (16777216 * (m.read (4 * k)).toNat + 65536 * (m.read (4 * k + 1)).toNat +
        256 * (m.read (4 * k + 2)).toNat + (m.read (4 * k + 3)).toNat) := by
  have hbytes : m.readBytes (4 * k) 4 =
      [m.read (4 * k), m.read (4 * k + 1), m.read (4 * k + 2), m.read (4 * k + 3)] := rfl
  rw [Memory.readWord, hbytes, be32]
  congr 1
  simp only [beNat, List.foldl]
  ring

/-- Byte `p` of a big-endian string, from the most significant one (00_scope.md R11). -/
theorem bytesBE_getD {k p : Nat} (v : Nat) (h : p < k) :
    (bytesBE k v).getD p 0 = BitVec.ofNat 8 (v / 256 ^ (k - 1 - p)) := by
  induction k generalizing v with
  | zero => omega
  | succ k ih =>
    rw [bytesBE]
    rcases Nat.lt_succ_iff_lt_or_eq.mp h with hp | rfl
    · rw [List.getD_append _ _ _ _ (by simpa using hp), ih _ hp, Nat.div_div_eq_div_mul, ← pow_succ',
        show k - 1 - p + 1 = k + 1 - 1 - p by omega]
    · rw [List.getD_append_right _ _ _ _ (by simp)]
      simp

theorem bytes32_getD (v : Word) {p : Nat} (h : p < 4) :
    (bytes32 v).getD p 0 = v.extractLsb' (8 * (3 - p)) 8 := by
  apply BitVec.eq_of_toNat_eq
  rw [bytes32, bytesBE_getD _ h, BitVec.extractLsb'_toNat, Nat.shiftRight_eq_div_pow, pow_mul,
    BitVec.toNat_ofNat]
  rfl

/-- One word stored, each byte by its bits in the word (20_memory.md R86). -/
theorem Memory.read_writeWord_extract {m : Memory} (h : m.wf) (k : Nat) (v : Word) (a : Nat) :
    (m.writeWord k v).read a =
      if 4 * k ≤ a ∧ a < 4 * k + 4 then v.extractLsb' (8 * (4 * k + 3 - a)) 8 else m.read a := by
  rw [Memory.read_writeWord h]
  by_cases ha : 4 * k ≤ a ∧ a < 4 * k + 4
  · rw [if_pos ha, if_pos ha, bytes32_getD v (by omega), show 3 - (a - 4 * k) = 4 * k + 3 - a by omega]
  · rw [if_neg ha, if_neg ha]

/-! ### Accesses that reach no register -/

/-- An access that is not 32 bits wide, misaligned or unmapped reaches no register (20_memory.md R81, R82,
R84). -/
theorem busTarget_eq_none {c : Config} {w : Width} {off : Nat}
    (h : w ≠ .w32 ∨ off % 4 ≠ 0 ∨ off = 0x01C ∨ (0x040 ≤ off ∧ off ≤ 0x0FF) ∨ 0x100 + c.bufBytes ≤ off) :
    busTarget c w off = none := by
  cases w with
  | w32 => exact decodeOffset_unmapped (h.resolve_left fun hne => hne rfl)
  | w8 | w16 | w64 => rfl

theorem busRead_of_target_none {s : State} {w : Width} {off : Nat} (h : busTarget s.cfg w off = none) :
    busRead s w off = (.busError, 0) := by
  rw [busRead, h]

theorem busWrite_of_target_none {s : State} {w : Width} {off : Nat} (h : busTarget s.cfg w off = none)
    (v : Word) : busWrite s w off v = (.busError, s) := by
  rw [busWrite, h]

/-! ### The host's turn with one access -/

theorem accessTurn_of_read {s : State} {w : Width} {off : Nat} {ops : List HostOp}
    (h : s.host = .read w off :: ops) : accessTurn s = State.hostRead w off { s with host := ops } := by
  rw [accessTurn, h]

theorem accessTurn_of_write {s : State} {w : Width} {off : Nat} {v : Word} {ops : List HostOp}
    (h : s.host = .write w off v :: ops) :
    accessTurn s = State.hostWrite w off v { s with host := ops } := by
  rw [accessTurn, h]

/-- Where BUS_ERROR_ACTION is `report` the host records the BUS_ERROR and goes on (20_memory.md R87). -/
theorem answer_busError_of_report {s : State} (h : s.cfg.busErrorAction = .report) (a : Response) :
    s.answer .busError a = .next (s.record a) := by
  simp only [State.answer, h]

/-- Where BUS_ERROR_ACTION is `fault` the host's program stops (20_memory.md R87). -/
theorem answer_busError_of_fault {s : State} (h : s.cfg.busErrorAction = .fault) (a : Response) :
    s.answer .busError a = .fault .busError := by
  simp only [State.answer, h]

theorem accessTurn_read_of_target_none {s : State} {w : Width} {off : Nat} {ops : List HostOp}
    (hs : s.host = .read w off :: ops) (h : busTarget s.cfg w off = none) :
    accessTurn s = State.answer .busError (.read .busError 0) { s with host := ops } := by
  rw [accessTurn_of_read hs, State.hostRead, busRead_of_target_none (s := { s with host := ops }) h]

theorem accessTurn_write_of_target_none {s : State} {w : Width} {off : Nat} {v : Word} {ops : List HostOp}
    (hs : s.host = .write w off v :: ops) (h : busTarget s.cfg w off = none) :
    accessTurn s = State.answer .busError (.write .busError) { s with host := ops } := by
  rw [accessTurn_of_write hs, State.hostWrite, busWrite_of_target_none (s := { s with host := ops }) h]

/-- The host's read turn changes only its own fields (20_memory.md R85). -/
theorem accessTurn_read_frame {s t : State} {w : Width} {off : Nat} {ops : List HostOp}
    (hs : s.host = .read w off :: ops) (ht : accessTurn s = .next t) :
    t = { s with host := ops, responses := t.responses } := by
  rw [accessTurn_of_read hs] at ht
  rw [answer_next ht]
  rfl

/-! ### The register window -/

theorem HostReg.wf_buf {c : Config} {k : Nat} (h : 4 * k < 8 * (c.nMax + 1)) :
    (HostReg.buf k).wf c = true := by
  refine decide_eq_true ?_
  rw [Config.bufBytes]
  omega

/-- Settles O30: each offset reads its register, and each register's value is the number its fields spell. -/
theorem busReadValues : Obligations.BusReadValues := by
  intro s
  refine ⟨fun off h => busRead_of_target_none (busTarget_eq_none (.inr h)),
    busRead_regOffset (r := .ctrl) rfl, busRead_regOffset (r := .cmd) rfl, ?_, ?_,
    busRead_regOffset (r := .dataLen) rfl, busRead_regOffset (r := .outLen) rfl, ?_, ?_, ?_,
    fun w off ops t => accessTurn_read_frame⟩
  · rw [← Status.word_eq_ofNat]
    exact busRead_regOffset (r := .status) rfl
  · rw [BitVec.ofNat_toNat]
    exact busRead_regOffset (r := .kekLen) rfl
  · intro hn
    rw [busRead_caps, capsWord_eq_ofNat hn]
  · exact fun w hw => busRead_regOffset (r := .kek w) (decide_eq_true hw)
  · intro k hk
    rw [← Memory.readWord_eq_ofNat]
    exact busRead_regOffset (r := .buf k) (HostReg.wf_buf hk)

/-- Settles O31: each offset writes its register, and a word stored in a byte array is described byte by
byte. -/
theorem busWriteEffects : Obligations.BusWriteEffects := by
  intro s v hbuf hkekb
  refine ⟨fun off h => busWrite_of_target_none (busTarget_eq_none (.inr h)) v,
    busWrite_regOffset (r := .ctrl) rfl v, busWrite_regOffset (r := .cmd) rfl v, ?_,
    busWrite_regOffset (r := .kekLen) rfl v, busWrite_regOffset (r := .dataLen) rfl v,
    busWrite_regOffset (r := .outLen) rfl v, busWrite_regOffset (r := .caps) rfl v,
    fun w hw => ⟨s.kekb.writeWord w v, ?_, Memory.read_writeWord_extract hkekb w v⟩,
    fun k hk => ⟨s.buf.writeWord k v, ?_, Memory.read_writeWord_extract hbuf k v⟩⟩
  · rw [← Status.writeW1C_eq]
    exact busWrite_regOffset (r := .status) rfl v
  · exact busWrite_regOffset (r := .kek w) (decide_eq_true hw) v
  · exact busWrite_regOffset (r := .buf k) (HostReg.wf_buf hk) v

/-- Settles O33: such an access reaches no register, and BUS_ERROR_ACTION decides how the host takes the
answer. -/
theorem busErrorChangesNothing : Obligations.BusErrorChangesNothing := by
  intro s w off v ops h
  have hnone : busTarget s.cfg w off = none := busTarget_eq_none h
  have report (hr : s.cfg.busErrorAction = .report) (a : Response) :=
    answer_busError_of_report (s := { s with host := ops }) hr a
  have fault (hf : s.cfg.busErrorAction = .fault) (a : Response) :=
    answer_busError_of_fault (s := { s with host := ops }) hf a
  refine ⟨busRead_of_target_none hnone, busWrite_of_target_none hnone v,
    fun hr => ⟨fun hs => ?_, fun hs => ?_⟩, fun hf hs => ?_⟩
  · exact (accessTurn_read_of_target_none hs hnone).trans (report hr _)
  · exact (accessTurn_write_of_target_none hs hnone).trans (report hr _)
  · rcases hs with hs | hs
    · exact (accessTurn_read_of_target_none hs hnone).trans (fault hf _)
    · exact (accessTurn_write_of_target_none hs hnone).trans (fault hf _)

/-- The window is the `windowBytes` addresses from BASE on (20_memory.md R83). -/
theorem windowOffset_eq_some_iff {c : Config} {addr off : Nat} :
    windowOffset c addr = some off ↔ addr = c.base + off ∧ off < windowBytes c := by
  unfold windowOffset
  split
  · rw [Option.some.injEq]
    omega
  · simp only [reduceCtorEq, false_iff]
    omega

/-- Settles O37: the window's extent gives the first two parts, and a BASE that is a multiple of 4 the third. -/
theorem windowStartsAtBase : Obligations.WindowStartsAtBase := by
  intro c hc
  have hbase : c.base % 4 = 0 := by
    simp only [Config.wf, Bool.and_eq_true, decide_eq_true_eq] at hc
    exact hc.2
  refine ⟨fun off => ?_, fun addr haddr => ?_, fun addr off hoff => ?_⟩
  · change _ = if off < windowBytes c then some off else none
    split
    · exact windowOffset_eq_some_iff.mpr ⟨rfl, ‹_›⟩
    · refine Option.eq_none_iff_forall_ne_some.mpr fun x hx => ?_
      have hx := windowOffset_eq_some_iff.mp hx
      omega
  · refine Option.eq_none_iff_forall_ne_some.mpr fun x hx => ?_
    have hx := windowOffset_eq_some_iff.mp hx
    omega
  · have hx := windowOffset_eq_some_iff.mp hoff
    omega

end Sys2Proof.Machine
end

section
/-! Proofs: the command words and the step that runs them (30_encoding.md R110, R111, R113, R114;
42_commands.md R224, R226). -/

namespace Sys2Proof.Machine

/-! ### Command words -/

/-- A command has one word (30_encoding.md R111). -/
theorem decode_eq_command_iff (v : Word) (i : Instr) : decode v = .command i ↔ v = encode i :=
  ⟨eq_encode_of_decode, fun h => h ▸ decode_encode i⟩

/-- ILLEGAL is every word of no command (30_encoding.md R113). -/
theorem decode_illegal_iff (v : Word) : (∃ why, decode v = .illegal why) ↔ ∀ i, v ≠ encode i := by
  simp only [ne_eq, ← decode_eq_command_iff]
  cases decode v with
  | command i => simp
  | illegal why => simp

theorem forall_instr {p : Instr → Prop} :
    (∀ i, p i) ↔ p .nop ∧ p .wrap ∧ p .unwrap ∧ p .wrapPad ∧ p .unwrapPad :=
  ⟨fun h => ⟨h _, h _, h _, h _, h _⟩, fun ⟨h0, h1, h2, h3, h4⟩ i => by cases i <;> assumption⟩

/-- Settles O1: the mask keeps the whole word, and each match is the word of a command. -/
theorem commandWordsMatchTable : Obligations.CommandWordsMatchTable := by
  intro v
  have hmask : v &&& 0xFFFFFFFF = v := BitVec.and_allOnes
  rw [hmask]
  exact ⟨decode_eq_command_iff v .nop, decode_eq_command_iff v .wrap, decode_eq_command_iff v .unwrap,
    decode_eq_command_iff v .wrapPad, decode_eq_command_iff v .unwrapPad,
    (decode_illegal_iff v).trans forall_instr⟩

theorem encoding_of_instr (i : Instr) : Laws.Encoding.Statement i := by
  cases i with
  | nop => exact Laws.Encoding.nop
  | wrap => exact Laws.Encoding.wrap
  | unwrap => exact Laws.Encoding.unwrap
  | wrapPad => exact Laws.Encoding.wrapPad
  | unwrapPad => exact Laws.Encoding.unwrapPad

/-- Settles O2: both decoders give each command back from its word. -/
theorem encodedCommandDecodes : Obligations.EncodedCommandDecodes := by
  intro i _
  obtain ⟨-, -, -, hdecode⟩ := encoding_of_instr i
  exact hdecode

/-- A word with a bit set above OP is ILLEGAL (30_encoding.md R113). -/
theorem decode_of_reservedBits {v : Word} (h : rsvdField v ≠ 0) : decode v = .illegal .reservedBits := by
  have hv : v ≠ 0 := by
    rintro rfl
    exact h rfl
  rw [decode, if_neg hv, if_pos h]

/-- A word with an OP above that of UNWRAP_PAD and nothing else set is ILLEGAL (30_encoding.md R113). -/
theorem decode_of_reservedCode {v : Word} (hr : rsvdField v = 0) (ho : 4 < opField v) :
    decode v = .illegal .reservedCode := by
  have hne (n : BitVec 4) (hn : n ≤ 4) : opField v ≠ n := by bv_omega
  have hv : v ≠ 0 := fun h => hne 0 (by decide) (by rw [h]; rfl)
  rw [decode, if_neg hv, if_neg (not_not.mpr hr), if_neg (hne 1 (by decide)), if_neg (hne 2 (by decide)),
    if_neg (hne 3 (by decide)), if_neg (hne 4 (by decide))]

/-- Settles O3: five words of commands, two with a reserved code, and four with a reserved bit. -/
theorem writtenWordsDecode : Obligations.WrittenWordsDecode :=
  ⟨decode_encode .nop, decode_encode .wrap, decode_encode .unwrap, decode_encode .wrapPad,
    decode_encode .unwrapPad, decode_of_reservedCode (by decide) (by decide),
    decode_of_reservedCode (by decide) (by decide), decode_of_reservedBits (by decide),
    decode_of_reservedBits (by decide), decode_of_reservedBits (by decide),
    decode_of_reservedBits (by decide)⟩

/-! ### The step that runs a command word -/

theorem runWord_of_command {v : Word} {i : Instr} (h : decode v = .command i) (s : State) :
    runWord v s = exec i s := by
  rw [runWord, h]

theorem runWord_of_illegal {v : Word} {why : IllegalWord} (h : decode v = .illegal why) (s : State) :
    runWord v s = .next (s.runIllegal v) := by
  rw [runWord, h]

/-- On a `command` turn a write to CMD runs the word (10_state.md R35, R52). -/
theorem commandTurn_of_cmd {s : State} {v : Word} {ops : List HostOp}
    (h : s.host = .write .w32 0x004 v :: ops) :
    commandTurn s = runWord v { s with host := ops, responses := .write .okay :: s.responses } := by
  rw [commandTurn, h]
  rfl

theorem step_of_command_turn {s : State} {v : Word} {ops : List HostOp} {ts : List Turn}
    (hhost : s.host = .write .w32 0x004 v :: ops) (hturns : s.turns = .command :: ts) :
    step s = runWord v { s with turns := ts, host := ops, responses := .write .okay :: s.responses } := by
  rw [step_of_turns hturns, takeTurn, commandTurn_of_cmd (s := { s with turns := ts }) hhost]

/-- With no turn left, an idle block serves the host (log 7). -/
theorem step_of_idle {s : State} (hturns : s.turns = []) (hphase : s.phase = .idle) :
    step s = commandTurn s := by
  rw [step, hturns]
  simp only [freeTurn, hphase]

/-- Settles O5: on either turn the step runs the word, which is `exec` of the command it decodes to or the
ILLEGAL_COMMAND completion of an ILLEGAL word. -/
theorem stepRunsDecodedCommand : Obligations.StepRunsDecodedCommand := by
  refine ⟨fun s v ops hhost => ⟨fun i ts hturns hd => ?_, fun i hturns hphase hd => ?_,
    fun why ts hturns hd => ?_, fun why hturns hphase hd => ?_⟩, fun s v i hd => ?_⟩
  · rw [step_of_command_turn hhost hturns, runWord_of_command hd]
  · rw [step_of_idle hturns hphase, commandTurn_of_cmd hhost, runWord_of_command hd]
  · rw [step_of_command_turn hhost hturns, runWord_of_illegal hd]
  · rw [step_of_idle hturns hphase, commandTurn_of_cmd hhost, runWord_of_illegal hd]
  · rw [State.withFetchWord, BitVec.ofNat_toNat, BitVec.setWidth_eq,
      step_of_command_turn (s := s.withCommandWord v) rfl rfl, runWord_of_command hd]
    rfl

/-! ### The completion of an accepted word -/

/-- FINISH after acceptance writes the result and leaves the rest as it was before acceptance (42_commands.md
R220, R226). -/
theorem completesWith_finish_accept (r : CmdResult) (v : Word) (s : State) :
    CompletesWith r s ((s.accept v).finish r) where
  busy := by cases r <;> rfl
  done := by cases r <;> rfl
  err := by cases r <;> rfl
  outLen := by cases r <;> rfl
  buf := by
    cases r with
    | ok out => exact Memory.read_ofBytes out
    | err e => exact fun k => rfl
  bufWf := by
    cases r with
    | ok out => exact Memory.ofBytes_wf out
    | err e => exact Memory.wf_nil
  kekb := State.finish_kekb r _
  accumulator := by simp [Work.zero]
  registers := by simp [Work.zero]
  snap := State.finish_snap r _
  phase := State.finish_phase r _
  counters := ⟨State.finish_j r _, State.finish_i r _⟩
  ie := by simp
  kekLen := by simp
  dataLen := by simp
  cfg := by simp
  host := by simp
  turns := by simp
  responses := by simp

/-- Settles O12: an ILLEGAL word is not 0, so it is accepted, and FINISH gives it its error. -/
theorem illegalWordCompletesWithError : Obligations.IllegalWordCompletesWithError := by
  intro s v why hd hb
  have hv : v ≠ 0 := by
    rintro rfl
    cases hd
  refine ⟨by rw [s.accept_of_ne v hv]; rfl, runWord_of_illegal hd s, ?_⟩
  rw [State.runIllegal, runCommand_of_idle hb hv]
  exact completesWith_finish_accept _ v s

end Sys2Proof.Machine
end

section
/-! Proofs: `kw.key` and `kw.data` store their bytes in the key file and the buffer (30_encoding.md R117;
10_state.md R37, R38, R40, R41). -/

namespace Sys2Proof.Machine

/-! ### Byte strings stored word by word -/

theorem wordAt_eq (h : List Byte) (k : Nat) : wordAt h k = be32 ((h.drop (4 * k)).take 4) := by
  rw [wordAt, slice, List.drop_take, Nat.add_sub_cancel_left]

/-- A word of a byte string spells its own four bytes (00_scope.md R11). -/
theorem bytes32_wordAt {h : List Byte} {k : Nat} (hk : 4 * k + 4 ≤ h.length) :
    bytes32 (wordAt h k) = (h.drop (4 * k)).take 4 := by
  have hlen : 4 ≤ (h.drop (4 * k)).length := by rw [List.length_drop]; omega
  rw [wordAt_eq, bytes32_be32 (List.length_take_of_le hlen)]

theorem Memory.writeBytes_append (m : Memory) (a : Nat) (s t : List Byte) :
    m.writeBytes a (s ++ t) = (m.writeBytes a s).writeBytes (a + s.length) t := by
  induction s generalizing m a with
  | nil => rfl
  | cons b s ih =>
    rw [List.cons_append, writeBytes, writeBytes, ih, List.length_cons, Nat.add_right_comm, Nat.add_assoc]

/-- The first `n` words of a byte string, stored one after the other, store its first `4 * n` bytes
(20_memory.md R80, R86). -/
theorem Memory.foldl_writeWord (m : Memory) {h : List Byte} {n : Nat} (hn : 4 * n ≤ h.length) :
    (List.range n).foldl (fun m k => m.writeWord k (wordAt h k)) m = m.writeBytes 0 (h.take (4 * n)) := by
  induction n with
  | zero => rfl
  | succ n ih =>
    rw [List.range_succ, List.foldl_concat, ih (by omega), writeWord, bytes32_wordAt hn, Nat.mul_succ,
      List.take_add, writeBytes_append, List.length_take_of_le (by omega), Nat.zero_add]

/-- A byte array that reads as a byte string over its length holds it. -/
theorem Memory.readBytes_eq_of_read {m : Memory} {s : List Byte}
    (h : ∀ k < s.length, m.read k = s.getD k 0) : m.readBytes 0 s.length = s := by
  refine List.ext_getElem (by simp) fun k _ hk => ?_
  simp [Memory.readBytes, h k hk, hk]

/-! ### A list of register writes, one access turn each -/

/-- The state with another host's program, schedule and record beside the block. -/
def State.withProgram (host : List HostOp) (turns : List Turn) (responses : List Response)
    (s : State) : State :=
  { s with host := host, turns := turns, responses := responses }

/-- The effect of 32-bit writes to registers, in order (20_memory.md R86). -/
def State.writeRegs (ws : List (HostReg × Word)) (s : State) : State :=
  ws.foldl (fun s p => s.writeReg p.1 p.2) s

theorem State.writeRegs_cons (s : State) (r : HostReg) (v : Word) (ws : List (HostReg × Word)) :
    s.writeRegs ((r, v) :: ws) = (s.writeReg r v).writeRegs ws := rfl

@[simp] theorem State.writeReg_cfg (s : State) (r : HostReg) (v : Word) : (s.writeReg r v).cfg = s.cfg := by
  cases r with
  | ctrl | status | outLen | caps => rfl
  | cmd | kekLen | dataLen | kek | buf =>
    rw [writeReg]
    split <;> simp

/-- Acceptance neither reads nor changes the host's program, the schedule and the record. -/
theorem State.accept_withProgram (s : State) (v : Word) (host : List HostOp) (turns : List Turn)
    (responses : List Response) :
    (s.withProgram host turns responses).accept v = (s.accept v).withProgram host turns responses := by
  unfold accept
  split <;> rfl

/-- A write to a register neither reads nor changes the host's program, the schedule and the record. -/
theorem State.writeReg_withProgram (s : State) (r : HostReg) (v : Word) (host : List HostOp)
    (turns : List Turn) (responses : List Response) :
    (s.withProgram host turns responses).writeReg r v =
      (s.writeReg r v).withProgram host turns responses := by
  cases r with
  | ctrl | status | outLen | caps => rfl
  | cmd | kekLen | dataLen | kek | buf =>
    simp only [writeReg, accept_withProgram]
    cases hb : s.status.busy <;> simp [withProgram, hb]

theorem answer_okay (s : State) (a : Response) : s.answer .okay a = .next (s.record a) := rfl

/-- An access turn in which the host writes a register that exists (20_memory.md R86). -/
theorem step_of_access_wr (s : State) {r : HostReg} (hr : r.wf s.cfg = true) (v : Word) (ops : List HostOp)
    (ts : List Turn) (rs : List Response) :
    step (s.withProgram (wr r v :: ops) (.access :: ts) rs) =
      .next ((s.writeReg r v).withProgram ops ts (.write .okay :: rs)) := by
  have hwrite : busWrite (s.withProgram ops ts rs) .w32 (regOffset r) v =
      (.okay, (s.writeReg r v).withProgram ops ts rs) := by
    rw [busWrite_regOffset (s := s.withProgram ops ts rs) hr, s.writeReg_withProgram]
  change State.hostWrite .w32 (regOffset r) v (s.withProgram ops ts rs) = _
  rw [State.hostWrite, hwrite]
  rfl

/-- Register writes on as many access turns, each answered OKAY (20_memory.md R86; 30_encoding.md R116). -/
theorem runSteps_wr {s : State} {ws : List (HostReg × Word)} (hws : ∀ p ∈ ws, p.1.wf s.cfg = true)
    (ops : List HostOp) (ts : List Turn) (rs : List Response) :
    runSteps ws.length (s.withProgram (ws.map (fun p => wr p.1 p.2) ++ ops)
        (List.replicate ws.length .access ++ ts) rs) =
      .next ((s.writeRegs ws).withProgram ops ts (List.replicate ws.length (.write .okay) ++ rs)) := by
  induction ws generalizing s rs with
  | nil => rfl
  | cons p ws ih =>
    have htail : ∀ q ∈ ws, q.1.wf (s.writeReg p.1 p.2).cfg = true := by
      simpa using fun r v hq => hws (r, v) (List.mem_cons_of_mem p hq)
    rw [List.length_cons, List.map_cons, List.replicate_succ, List.cons_append, List.cons_append, runSteps,
      step_of_access_wr s (hws p List.mem_cons_self), List.replicate_succ', List.append_assoc]
    exact ih htail (.write .okay :: rs)

/-! ### The key file and the buffer, loaded word by word -/

theorem writeReg_kekLen {s : State} (hb : s.status.busy = false) (v : Word) :
    s.writeReg .kekLen v = { s with kekLen := v.extractLsb' 0 8 } := if_neg (by simp [hb])

theorem writeReg_dataLen {s : State} (hb : s.status.busy = false) (v : Word) :
    s.writeReg .dataLen v = { s with dataLen := v } := if_neg (by simp [hb])

theorem writeRegs_kek {s : State} (hb : s.status.busy = false) (f : Nat → Word) (ks : List Nat) :
    s.writeRegs (ks.map fun w => (.kek w, f w)) =
      { s with kekb := ks.foldl (fun m w => m.writeWord w (f w)) s.kekb } :=
  List.foldl_map.trans
    (List.foldl_hom (fun m => { s with kekb := m }) fun m w => by simp [State.writeReg, hb])

theorem writeRegs_buf {s : State} (hb : s.status.busy = false) (f : Nat → Word) (ks : List Nat) :
    s.writeRegs (ks.map fun k => (.buf k, f k)) =
      { s with buf := ks.foldl (fun m k => m.writeWord k (f k)) s.buf } :=
  List.foldl_map.trans
    (List.foldl_hom (fun m => { s with buf := m }) fun m k => by simp [State.writeReg, hb])

/-! ### `kw.key` -/

/-- The register writes of `kw.key H` (30_encoding.md R117). -/
def keyWrites (h : List Byte) : List (HostReg × Word) :=
  (.kekLen, BitVec.ofNat 32 h.length) :: (List.range (h.length / 4)).map fun w => (.kek w, wordAt h w)

theorem keyWrites_length (h : List Byte) : (keyWrites h).length = 1 + h.length / 4 := by
  simp [keyWrites, Nat.add_comm]

theorem kwKey_eq_map_wr (h : List Byte) : kwKey h = (keyWrites h).map fun p => wr p.1 p.2 := by
  simp [kwKey, keyWrites]

theorem kwKeyWf_iff {h : List Byte} :
    kwKeyWf h = true ↔ h.length = 16 ∨ h.length = 24 ∨ h.length = 32 := by
  simp [kwKeyWf, or_assoc]

theorem wf_of_mem_keyWrites (c : Config) {h : List Byte} (hlen : h.length ≤ 32) :
    ∀ p ∈ keyWrites h, p.1.wf c = true := by
  intro p hp
  rcases List.mem_cons.mp hp with rfl | hp
  · rfl
  · obtain ⟨w, hw, rfl⟩ := List.mem_map.mp hp
    have hw := List.mem_range.mp hw
    exact decide_eq_true (by omega)

/-- `kw.key H` stores its length and its bytes. -/
theorem writeRegs_keyWrites {s : State} {h : List Byte} (hb : s.status.busy = false)
    (hlen : 4 * (h.length / 4) = h.length) :
    s.writeRegs (keyWrites h) =
      { s with kekLen := BitVec.ofNat 8 h.length, kekb := s.kekb.writeBytes 0 h } := by
  have hkekLen : (BitVec.ofNat 32 h.length).extractLsb' 0 8 = BitVec.ofNat 8 h.length := by
    apply BitVec.eq_of_toNat_eq
    simp
  rw [keyWrites, State.writeRegs_cons, writeReg_kekLen hb, hkekLen,
    writeRegs_kek (s := { s with kekLen := BitVec.ofNat 8 h.length }) hb, Memory.foldl_writeWord _ hlen.le,
    hlen, List.take_length]

/-- Settles O48: the run of the writes stores the bytes of the key in the key file, and its length. -/
theorem keyLoadWritesKey : Obligations.KeyLoadWritesKey := by
  intro s h ops ts hwf hb hkekb
  have hlen := kwKeyWf_iff.mp hwf
  have hrun := runSteps_wr (wf_of_mem_keyWrites s.cfg (h := h) (by omega)) ops ts s.responses
  rw [keyWrites_length, ← kwKey_eq_map_wr, writeRegs_keyWrites hb (by omega)] at hrun
  have hread (a : Nat) :
      (s.kekb.writeBytes 0 h).read a = if a < h.length then h.getD a 0 else s.kekb.read a := by
    simpa using Memory.read_writeBytes hkekb 0 h a
  refine ⟨_, hrun, rfl, hread, ?_⟩
  have hkey := Memory.readBytes_eq_of_read fun k hk => (hread k).trans (if_pos hk)
  rwa [← Nat.mod_eq_of_lt (show h.length < 2 ^ 8 by omega), ← BitVec.toNat_ofNat] at hkey

/-! ### `kw.data` -/

theorem Config.nMax_lt {c : Config} (h : c.wf = true) : c.nMax < 2 ^ 24 := by
  simp only [Config.wf, Bool.and_eq_true, decide_eq_true_eq] at h
  omega

/-- `kw.data`'s byte string `H`, filled up with zeros to whole words (30_encoding.md R117). -/
def padToWords (h : List Byte) : List Byte := h ++ zeros (4 * wordCount h.length - h.length)

theorem padToWords_length (h : List Byte) : (padToWords h).length = 4 * wordCount h.length := by
  rw [padToWords, List.length_append, zeros_length, wordCount]
  omega

theorem padToWords_getD (h : List Byte) (k : Nat) : (padToWords h).getD k 0 = h.getD k 0 := by
  rcases Nat.lt_or_ge k h.length with hk | hk
  · exact List.getD_append _ _ _ _ hk
  · rw [padToWords, List.getD_append_right _ _ _ _ hk, List.getD_eq_default _ _ hk, zeros]
    simp

/-- The register writes of `kw.data H` (30_encoding.md R117). -/
def dataWrites (h : List Byte) : List (HostReg × Word) :=
  (.dataLen, BitVec.ofNat 32 h.length) ::
    (List.range (wordCount h.length)).map fun k => (.buf k, wordAt (padToWords h) k)

theorem dataWrites_length (h : List Byte) : (dataWrites h).length = 1 + wordCount h.length := by
  simp [dataWrites, Nat.add_comm]

theorem kwData_eq_map_wr (h : List Byte) : kwData h = (dataWrites h).map fun p => wr p.1 p.2 := by
  simp [kwData, dataWrites, padToWords]

theorem wf_of_mem_dataWrites {c : Config} {h : List Byte} (hlen : h.length ≤ 8 * (c.nMax + 1)) :
    ∀ p ∈ dataWrites h, p.1.wf c = true := by
  intro p hp
  rcases List.mem_cons.mp hp with rfl | hp
  · rfl
  · obtain ⟨k, hk, rfl⟩ := List.mem_map.mp hp
    have hk := List.mem_range.mp hk
    rw [wordCount] at hk
    exact HostReg.wf_buf (by omega)

/-- `kw.data H` stores its length, and its bytes with zeros to the end of the last word. -/
theorem writeRegs_dataWrites {s : State} (hb : s.status.busy = false) (h : List Byte) :
    s.writeRegs (dataWrites h) =
      { s with dataLen := BitVec.ofNat 32 h.length, buf := s.buf.writeBytes 0 (padToWords h) } := by
  have hpad := padToWords_length h
  rw [dataWrites, State.writeRegs_cons, writeReg_dataLen hb,
    writeRegs_buf (s := { s with dataLen := BitVec.ofNat 32 h.length }) hb,
    Memory.foldl_writeWord _ hpad.ge, ← hpad, List.take_length]

/-- Settles O49: the run of the writes stores the bytes of the input in the buffer, and its length. -/
theorem dataLoadWritesInput : Obligations.DataLoadWritesInput := by
  intro s h ops ts hwf hcfg hb hbuf
  have hlen : h.length ≤ 8 * (s.cfg.nMax + 1) := of_decide_eq_true hwf
  have hmax := Config.nMax_lt hcfg
  have hrun := runSteps_wr (wf_of_mem_dataWrites hlen) ops ts s.responses
  rw [dataWrites_length, ← kwData_eq_map_wr, writeRegs_dataWrites hb] at hrun
  have hread (a : Nat) : (s.buf.writeBytes 0 (padToWords h)).read a =
      if a < 4 * wordCount h.length then h.getD a 0 else s.buf.read a := by
    rw [Memory.read_writeBytes hbuf, padToWords_length, Nat.sub_zero, padToWords_getD]
    simp
  refine ⟨_, hrun, rfl, hread, ?_⟩
  have hinput := Memory.readBytes_eq_of_read (s := h) fun k hk =>
    (hread k).trans (if_pos (by rw [wordCount]; omega))
  rwa [← Nat.mod_eq_of_lt (show h.length < 2 ^ 32 by omega), ← BitVec.toNat_ofNat] at hinput

end Sys2Proof.Machine
end

section
/-! Proofs: the pseudo-instructions and `poll` (30_encoding.md R116, R117; 20_memory.md R85, R87). -/

namespace Sys2Proof.Machine

/-- Settles O47: a word of a byte string is the `be32` of four of its bytes, and the rest is the register
map. -/
theorem pseudoInstructionExpansions : Obligations.PseudoInstructionExpansions := by
  refine ⟨rfl, rfl, rfl, rfl, rfl, rfl, rfl, fun h _ => ?_, fun c h _ => ?_, fun n => rfl⟩
  · simp only [kwKey, wr, regOffset, wordAt_eq]
  · simp only [kwData, wr, regOffset, wordAt_eq, wordCount, zeros]

/-- The data of a BUS_ERROR are 0 (20_memory.md R85). -/
theorem busRead_eq_of_busError {s : State} {w : Width} {off : Nat} (h : (busRead s w off).1 = .busError) :
    busRead s w off = (.busError, 0) := by
  unfold busRead at h ⊢
  split at h
  · cases h
  · rfl

/-- A read of a `poll` whose masked data match: the host goes on, if the answer lets it (30_encoding.md
R116). -/
theorem accessTurn_of_poll_match {s : State} {off : Nat} {mask val data : Word} {ops : List HostOp}
    {r : BusResponse} (hs : s.host = .poll off mask val :: ops) (hread : busRead s .w32 off = (r, data))
    (hm : data &&& mask = val) :
    accessTurn s = State.answer r (.read r data) { s with host := ops } := by
  rw [accessTurn, hs]
  simp only [State.hostPoll, hread, if_pos hm]

/-- A read of a `poll` whose masked data do not match: the `poll` stays (30_encoding.md R116). -/
theorem accessTurn_of_poll_mismatch {s : State} {off : Nat} {mask val data : Word} {ops : List HostOp}
    {r : BusResponse} (hs : s.host = .poll off mask val :: ops) (hread : busRead s .w32 off = (r, data))
    (hm : data &&& mask ≠ val) : accessTurn s = s.answer r (.read r data) := by
  rw [accessTurn, hs]
  simp only [State.hostPoll, hread, if_neg hm]

/-- Settles O50: each answer of the read, with matching data and without. -/
theorem pollRepeatsUntilMatch : Obligations.PollRepeatsUntilMatch := by
  intro s off mask val ops hs
  refine ⟨fun data hread => ⟨fun hm => ?_, fun hm => ?_⟩, fun herr => ?_⟩
  · exact (accessTurn_of_poll_match hs hread hm).trans (answer_okay _ _)
  · exact (accessTurn_of_poll_mismatch hs hread hm).trans (answer_okay _ _)
  · have hread := busRead_eq_of_busError herr
    refine ⟨fun hf => ?_, fun hr hval => ?_, fun hr hval => ?_⟩
    · by_cases hm : 0 &&& mask = val
      · exact (accessTurn_of_poll_match hs hread hm).trans
          (answer_busError_of_fault (s := { s with host := ops }) hf _)
      · exact (accessTurn_of_poll_mismatch hs hread hm).trans (answer_busError_of_fault hf _)
    · have hm : 0 &&& mask = val := BitVec.zero_and.trans hval.symm
      exact (accessTurn_of_poll_match hs hread hm).trans
        (answer_busError_of_report (s := { s with host := ops }) hr _)
    · have hm : 0 &&& mask ≠ val := fun h => hval (h.symm.trans BitVec.zero_and)
      exact (accessTurn_of_poll_mismatch hs hread hm).trans (answer_busError_of_report hr _)

end Sys2Proof.Machine
end

section
/-! Proofs: one step of the engine in each cipher phase of the chaining engine (40_chaining_engine.md R143,
R145; 10_state.md R51). -/

namespace Sys2Proof.Machine

/-! ### The registers after one is replaced -/

theorem Work.setR_r_getD_self {w : Work} {i : Nat} (h : i - 1 < w.r.length) (v : Half) :
    (w.setR i v).r.getD (i - 1) 0 = v := by
  simp [h]

theorem Work.setR_r_getElem?_of_ne (w : Work) {i k : Nat} (h : k ≠ i - 1) (v : Half) :
    (w.setR i v).r[k]? = w.r[k]? :=
  List.getElem?_set_ne h.symm

/-! ### WRAP_STEP -/

theorem engineStep_of_wrapStep {s : State} (h : s.phase = .wrapStep) : engineStep s = s.wrapPhase := by
  rw [engineStep, h]

/-- Wherever WRAP_STEP goes next, it leaves the registers of one wrap step. -/
theorem wrapPhase_work (s : State) :
    s.wrapPhase.work = wrapStep (encryptBlock s.snap.key) s.snap.blocks s.j s.i s.work := by
  unfold State.wrapPhase
  dsimp only
  split
  · rfl
  · split <;> rfl

theorem wrapPhase_of_lt {s : State} (h : s.i < s.snap.blocks) :
    s.wrapPhase = { s with work := s.wrapPhase.work, i := s.i + 1 } := by
  simp only [State.wrapPhase, if_pos h]

theorem wrapPhase_of_row_end {s : State} (hi : s.i = s.snap.blocks) (hj : s.j < 5) :
    s.wrapPhase = { s with work := s.wrapPhase.work, j := s.j + 1, i := 1 } := by
  simp only [State.wrapPhase, if_neg hi.not_lt, if_pos hj]

theorem wrapPhase_of_last {s : State} (hi : s.i = s.snap.blocks) (hj : s.j = 5) :
    s.wrapPhase = { s with
      work := s.wrapPhase.work
      phase := .finish (.ok (unloadWrap s.snap.blocks s.wrapPhase.work)) } := by
  simp only [State.wrapPhase, if_neg hi.not_lt, if_neg hj.not_lt]

/-- Settles O19: the step's registers are those of `wrapStep`, whose `R[i]` is the one replaced, and each of
the three next positions is a branch of WRAP_STEP. -/
theorem wrapStepValues : Obligations.WrapStepValues := by
  intro s hp h1 hi hlen b hb
  have hreg : s.i - 1 < s.work.r.length := by omega
  subst hb
  rw [engineStep_of_wrapStep hp]
  refine ⟨?_, ?_, fun k hk => ?_, wrapPhase_of_lt, wrapPhase_of_row_end, wrapPhase_of_last⟩
  · rw [wrapPhase_work]
    rfl
  · rw [wrapPhase_work]
    exact Work.setR_r_getD_self hreg _
  · rw [wrapPhase_work]
    exact Work.setR_r_getElem?_of_ne _ hk _

/-! ### UNWRAP_STEP -/

theorem engineStep_of_unwrapStep {s : State} (h : s.phase = .unwrapStep) :
    engineStep s = s.unwrapPhase := by
  rw [engineStep, h]

/-- Wherever UNWRAP_STEP goes next, it leaves the registers of one unwrap step. -/
theorem unwrapPhase_work (s : State) :
    s.unwrapPhase.work = unwrapStep (decryptBlock s.snap.key) s.snap.blocks s.j s.i s.work := by
  unfold State.unwrapPhase
  dsimp only
  split
  · rfl
  · split <;> rfl

theorem unwrapPhase_of_gt {s : State} (h : 1 < s.i) :
    s.unwrapPhase = { s with work := s.unwrapPhase.work, i := s.i - 1 } := by
  simp only [State.unwrapPhase, if_pos h]

theorem unwrapPhase_of_row_end {s : State} (hi : s.i = 1) (hj : 0 < s.j) :
    s.unwrapPhase = { s with work := s.unwrapPhase.work, j := s.j - 1, i := s.snap.blocks } := by
  simp only [State.unwrapPhase, if_neg hi.not_gt, if_pos hj]

theorem unwrapPhase_of_last {s : State} (hi : s.i = 1) (hj : s.j = 0) :
    s.unwrapPhase = { s with work := s.unwrapPhase.work, phase := .verify } := by
  simp only [State.unwrapPhase, if_neg hi.not_gt, if_neg hj.not_gt]

/-- Settles O20: the step's registers are those of `unwrapStep`, whose `R[i]` is the one replaced, and each
of the three next positions is a branch of UNWRAP_STEP. -/
theorem unwrapStepValues : Obligations.UnwrapStepValues := by
  intro s hp h1 hi hlen b hb
  have hreg : s.i - 1 < s.work.r.length := by omega
  subst hb
  rw [engineStep_of_unwrapStep hp]
  refine ⟨?_, ?_, fun k hk => ?_, unwrapPhase_of_gt, unwrapPhase_of_row_end, unwrapPhase_of_last⟩
  · rw [unwrapPhase_work]
    rfl
  · rw [unwrapPhase_work]
    exact Work.setR_r_getD_self hreg _
  · rw [unwrapPhase_work]
    exact Work.setR_r_getElem?_of_ne _ hk _

end Sys2Proof.Machine
end

section
/-! Proofs: the inverse, length and cost laws of the chaining engine (40_chaining_engine.md R144, R146,
R148). -/

namespace Sys2Proof.Machine

/-- VERIFY goes to FINISH whatever the command is (10_state.md R51). -/
theorem verifyPhase_eq_toFinish (s : State) : ∃ r, s.verifyPhase = s.toFinish r := by
  unfold State.verifyPhase
  dsimp only
  split <;> exact ⟨_, rfl⟩

/-- From VERIFY on the engine makes no cipher call: FINISH is next. -/
theorem cipherCalls_of_verify {s : State} (h : s.phase = .verify) (k : Nat) : cipherCalls k s = 0 := by
  obtain ⟨r, hr⟩ := verifyPhase_eq_toFinish s
  have hstep : engineStep s = s.toFinish r := by rw [engineStep, h, ← hr]
  have hreach : Reaches s 1 r 0 :=
    reaches_step (b := false) (inside_of_eq h inside_verify) (by rw [h]; rfl)
      (reaches_here (by rw [hstep]; rfl))
  cases k with
  | zero => rfl
  | succ k => exact hreach.calls_after (by omega)

/-- The unwrap rounds make `6n` cipher calls, and none is made after them (R148). -/
theorem cipherCalls_startUnwrap {s : State} {n m : Nat} {c : List Byte} (hn : s.snap.blocks = n)
    (h1 : 1 ≤ n) (hc : c.length / 8 - 1 = n) (hm : 6 * n ≤ m) :
    cipherCalls m (s.startUnwrap (c.length / 8 - 1) c) = 6 * n := by
  obtain ⟨hrounds, hverify, -⟩ := engineRun_unwrapCore hn h1 hc
  obtain ⟨k, rfl⟩ := Nat.exists_eq_add_of_le hm
  rw [cipherCalls_add, cipherCalls_of_verify hverify, cipherCalls_of_all, Nat.add_zero]
  intro k hk
  rw [hrounds k hk]
  rfl

/-- Settles O21: the inverse law is the cipher's, the length law is that of the unloaded registers, and the
run is the `6n` steps of the rounds followed by phases that make no call. -/
theorem chainingEngineLaws : Obligations.ChainingEngineLaws := by
  intro k iv n p h1 hp
  refine ⟨unwrapCore_wrapCore (decryptBlock_encryptBlock k) iv hp, ?_, fun s hk hn => ?_⟩
  · rw [wrapCore_length _ iv hp, hp, Nat.mul_succ]
  · subst hk
    have hwrap := reaches_wrapCore iv hn h1 hp
    rw [show p.length / 8 = n by omega] at hwrap
    refine ⟨hwrap.finish, fun m hm => hwrap.calls_after hm, fun c hlen => ?_⟩
    have hc : c.length / 8 - 1 = n := by omega
    obtain ⟨-, hverify, hcore⟩ := engineRun_unwrapCore hn h1 hc
    have hcalls := fun m hm => cipherCalls_startUnwrap (m := m) hn h1 hc hm
    rw [hc] at hverify hcore hcalls
    exact ⟨hverify, hcore, hcalls⟩

end Sys2Proof.Machine
end

section
/-! Proofs: WRAP followed by UNWRAP of its output (40_chaining_engine.md R148; 42_commands.md R236,
R237). -/

namespace Sys2Proof.Machine

/-! ### A command on a block that is not busy -/

/-- A command other than NOP, on a block that is not busy, completes with its result on the operands the host
has set (42_commands.md R224, R226). -/
theorem exec_completesWith {i : Instr} {s : State} (hi : i ≠ .nop) (hb : s.status.busy = false) :
    ∃ t, exec i s = .next t ∧
      CompletesWith (commandResult i s.cfg (s.takeSnapshot (encode i))) s t := by
  refine ⟨_, exec_of_idle hi hb, ?_⟩
  rw [execute_of_decode (i := i) (by simp)]
  exact completesWith_finish_accept _ _ s

/-- WRAP on a ready block gives `W(K, IV_KW, X)` (R236). -/
theorem commandResult_wrap_of_ready {s : State} (h : s.ready .wrap) (v : Word) :
    commandResult .wrap s.cfg (s.takeSnapshot v) =
      .ok (wrapCore (encryptBlock s.hostKey) ivKw s.hostInput) := by
  obtain ⟨-, hkey, hlen⟩ := h
  rw [commandResult, wrapResult, operandError_of_ok hkey hlen]
  rfl

/-- UNWRAP on a ready block gives the plaintext of `W⁻¹(K, X)` where its IV is `IV_KW`, and else fails
(R237). -/
theorem commandResult_unwrap_of_ready {s : State} (h : s.ready .unwrap) (v : Word) :
    commandResult .unwrap s.cfg (s.takeSnapshot v) =
      checkIv (unwrapCore (decryptBlock s.hostKey) s.hostInput).2
        (unwrapCore (decryptBlock s.hostKey) s.hostInput).1 := by
  obtain ⟨-, hkey, hlen⟩ := h
  rw [commandResult, unwrapResult, operandError_of_ok hkey hlen]
  rfl

theorem checkIv_ivKw (p : List Byte) : checkIv ivKw p = .ok p := if_neg (by simp)

/-! ### The block between the two commands -/

/-- What the host sets up between a wrap and the unwrap of its output: the key file again, and DATA_LEN at
OUT_LEN (95_test_vectors.md P2). -/
def State.reloaded (kekb : Memory) (t : State) : State := { t with kekb := kekb, dataLen := t.outLen }

section
variable {out : List Byte} {s t : State}

theorem CompletesWith.reloaded_dataLen (h : CompletesWith (.ok out) s t) (hlen : out.length < 2 ^ 32)
    (kekb : Memory) : (t.reloaded kekb).dataLen.toNat = out.length := by
  rw [State.reloaded, h.outLen, BitVec.toNat_ofNat]
  exact Nat.mod_eq_of_lt hlen

/-- The next input is the command's output, which stands in the buffer (42_commands.md R226). -/
theorem CompletesWith.reloaded_hostInput (h : CompletesWith (.ok out) s t) (hlen : out.length < 2 ^ 32)
    (kekb : Memory) : (t.reloaded kekb).hostInput = out := by
  rw [State.hostInput, h.reloaded_dataLen hlen]
  exact Memory.readBytes_eq_of_read fun k _ => h.buf k

/-- The key is the same again, since KEK_LEN has not changed. -/
theorem CompletesWith.reloaded_hostKey {r : CmdResult} (h : CompletesWith r s t) :
    (t.reloaded s.kekb).hostKey = s.hostKey := by
  rw [State.hostKey, State.hostKey, State.reloaded, h.kekLen]

/-- The reloaded block is ready for the next command if the output's length is one it takes. -/
theorem CompletesWith.reloaded_ready (h : CompletesWith (.ok out) s t) (hout : out.length < 2 ^ 32)
    (hkey : keySizeOk s.kekLen = true) {i : Instr} (hlen : lengthOk s.cfg i out.length = true)
    (kekb : Memory) : (t.reloaded kekb).ready i := by
  refine ⟨h.busy, ?_, ?_⟩
  · rwa [State.reloaded, h.kekLen]
  · rw [h.reloaded_dataLen hout, State.reloaded, h.cfg]
    exact hlen

end

/-! ### The round trip -/

theorem wrapLengthOk_iff {c : Config} {l : Nat} :
    wrapLengthOk c l = true ↔ l % 8 = 0 ∧ minBlocks c ≤ l / 8 ∧ l / 8 ≤ c.nMax := by
  simp only [wrapLengthOk, Bool.and_eq_true, decide_eq_true_eq, and_assoc]

theorem unwrapLengthOk_iff {c : Config} {l : Nat} :
    unwrapLengthOk c l = true ↔ l % 8 = 0 ∧ minBlocks c ≤ l / 8 - 1 ∧ l / 8 - 1 ≤ c.nMax := by
  simp only [unwrapLengthOk, Bool.and_eq_true, decide_eq_true_eq, and_assoc]

/-- UNWRAP takes eight bytes more than WRAP (42_commands.md R222). -/
theorem unwrapLengthOk_of_wrapLengthOk {c : Config} {l : Nat} (h : wrapLengthOk c l = true) :
    unwrapLengthOk c (l + 8) = true := by
  obtain ⟨h8, hmin, hmax⟩ := wrapLengthOk_iff.mp h
  exact unwrapLengthOk_iff.mpr ⟨by omega, by omega, by omega⟩

/-- Settles O27: WRAP leaves `W(K, IV_KW, X)` in the buffer, whose length UNWRAP takes, and `W⁻¹` under the
same key gives `X` and the IV that UNWRAP compares with. -/
theorem wrapThenUnwrapRestores : Obligations.WrapThenUnwrapRestores := by
  intro s hcfg hready
  obtain ⟨hb, hkey, hlen⟩ := hready
  obtain ⟨h8, -, hmax⟩ := wrapLengthOk_iff.mp hlen
  have hblocks : s.hostInput.length = 8 * (s.dataLen.toNat / 8) := by rw [State.hostInput_length]; omega
  have hout : (wrapCore (encryptBlock s.hostKey) ivKw s.hostInput).length = s.dataLen.toNat + 8 := by
    rw [wrapCore_length _ ivKw hblocks]
    omega
  have hout32 : (wrapCore (encryptBlock s.hostKey) ivKw s.hostInput).length < 2 ^ 32 := by
    have := Config.nMax_lt hcfg
    omega
  obtain ⟨t, ht, hwrapped⟩ := exec_completesWith (i := .wrap) (by simp) hb
  rw [commandResult_wrap_of_ready ⟨hb, hkey, hlen⟩] at hwrapped
  have hready : (t.reloaded s.kekb).ready .unwrap :=
    hwrapped.reloaded_ready hout32 hkey (hout ▸ unwrapLengthOk_of_wrapLengthOk hlen) _
  obtain ⟨u, hu, hunwrapped⟩ := exec_completesWith (i := .unwrap) (by simp) hready.1
  rw [commandResult_unwrap_of_ready hready, hwrapped.reloaded_hostInput hout32, hwrapped.reloaded_hostKey,
    unwrapCore_wrapCore (decryptBlock_encryptBlock _) ivKw hblocks, checkIv_ivKw] at hunwrapped
  refine ⟨t, ht, u, hu, hunwrapped, ?_⟩
  rw [hunwrapped.outLen, CmdResult.output, State.hostInput_length, BitVec.ofNat_toNat, BitVec.setWidth_eq]

end Sys2Proof.Machine
end

section
/-! Proofs: the laws of the padding extension, and WRAP_PAD followed by UNWRAP_PAD of its output
(41_padding_extension.md R184, R189, R190; 42_commands.md R238, R239). -/

namespace Sys2Proof.Machine

/-- Settles O22: the first stage of `UP` recovers the AIV and the padded plaintext, and the checks pass on
these whatever PAD_ZERO_CHECK is; the length law is that of `WP` on its short and its long path. -/
theorem paddingLaws : Obligations.PaddingLaws := by
  intro z k p h1 h2
  exact ⟨padUnwrapCore_padWrapCore z (decryptBlock_encryptBlock k) h1 h2, padWrapCore_length _ h1⟩

/-! ### The padded commands on a ready block -/

/-- WRAP_PAD on a ready block gives `WP(K, X)` (R238). -/
theorem commandResult_wrapPad_of_ready {s : State} (h : s.ready .wrapPad) (v : Word) :
    commandResult .wrapPad s.cfg (s.takeSnapshot v) =
      .ok (padWrapCore (encryptBlock s.hostKey) s.hostInput) := by
  obtain ⟨-, hkey, hlen⟩ := h
  rw [commandResult, wrapPadResult, operandError_of_ok hkey hlen]
  rfl

/-- UNWRAP_PAD on a ready block gives `UP(K, X)` under the block's PAD_ZERO_CHECK (R239). -/
theorem commandResult_unwrapPad_of_ready {s : State} (h : s.ready .unwrapPad) (v : Word) :
    commandResult .unwrapPad s.cfg (s.takeSnapshot v) =
      padUnwrapCore s.cfg.padZeroCheck (decryptBlock s.hostKey) s.hostInput := by
  obtain ⟨-, hkey, hlen⟩ := h
  rw [commandResult, unwrapPadResult, operandError_of_ok hkey hlen]
  rfl

/-! ### The padded round trip -/

theorem wrapPadLengthOk_iff {c : Config} {l : Nat} :
    wrapPadLengthOk c l = true ↔ 1 ≤ l ∧ ceil8 l ≤ c.nMax := by
  simp only [wrapPadLengthOk, Bool.and_eq_true, decide_eq_true_eq]

theorem unwrapPadLengthOk_iff {c : Config} {l : Nat} :
    unwrapPadLengthOk c l = true ↔ l % 8 = 0 ∧ 16 ≤ l ∧ l / 8 - 1 ≤ c.nMax := by
  simp only [unwrapPadLengthOk, Bool.and_eq_true, decide_eq_true_eq, and_assoc]

/-- UNWRAP_PAD takes eight bytes more than the padded plaintext of WRAP_PAD has (42_commands.md R223). -/
theorem unwrapPadLengthOk_of_wrapPadLengthOk {c : Config} {l : Nat} (h : wrapPadLengthOk c l = true) :
    unwrapPadLengthOk c (8 * ceil8 l + 8) = true := by
  obtain ⟨h1, hmax⟩ := wrapPadLengthOk_iff.mp h
  have hceil := le_ceil8 l
  exact unwrapPadLengthOk_iff.mpr ⟨by omega, by omega, by omega⟩

/-- The short path's 16 bytes are also one half more than the padded plaintext (R184). -/
theorem padWrapCore_length_eq_ceil8 (e : Block → Block) {p : List Byte} (h : 1 ≤ p.length) :
    (padWrapCore e p).length = 8 * ceil8 p.length + 8 := by
  have hceil := le_ceil8 p.length
  rw [padWrapCore_length e h]
  split <;> omega

/-- Settles O28: WRAP_PAD leaves `WP(K, X)` in the buffer, whose length UNWRAP_PAD takes on the short path
as on the long one, and `UP` under the same key gives `X` whatever the block's PAD_ZERO_CHECK is. -/
theorem wrapPadThenUnwrapPadRestores : Obligations.WrapPadThenUnwrapPadRestores := by
  intro s hcfg hready
  obtain ⟨hb, hkey, hlen⟩ := hready
  obtain ⟨h1, hmax⟩ := wrapPadLengthOk_iff.mp hlen
  have hinput : 1 ≤ s.hostInput.length := by rwa [State.hostInput_length]
  have hinput32 : s.hostInput.length < 2 ^ 32 := by
    rw [State.hostInput_length]
    exact s.dataLen.isLt
  have hout : (padWrapCore (encryptBlock s.hostKey) s.hostInput).length =
      8 * ceil8 s.dataLen.toNat + 8 := by
    rw [padWrapCore_length_eq_ceil8 _ hinput, State.hostInput_length]
  have hout32 : (padWrapCore (encryptBlock s.hostKey) s.hostInput).length < 2 ^ 32 := by
    have := Config.nMax_lt hcfg
    omega
  obtain ⟨t, ht, hwrapped⟩ := exec_completesWith (i := .wrapPad) (by simp) hb
  rw [commandResult_wrapPad_of_ready ⟨hb, hkey, hlen⟩] at hwrapped
  have hready : (t.reloaded s.kekb).ready .unwrapPad :=
    hwrapped.reloaded_ready hout32 hkey (hout ▸ unwrapPadLengthOk_of_wrapPadLengthOk hlen) _
  obtain ⟨u, hu, hunwrapped⟩ := exec_completesWith (i := .unwrapPad) (by simp) hready.1
  rw [commandResult_unwrapPad_of_ready hready, hwrapped.reloaded_hostInput hout32,
    hwrapped.reloaded_hostKey,
    padUnwrapCore_padWrapCore _ (decryptBlock_encryptBlock _) hinput hinput32] at hunwrapped
  refine ⟨t, ht, u, hu, hunwrapped, ?_⟩
  rw [hunwrapped.outLen, CmdResult.output, State.hostInput_length, BitVec.ofNat_toNat, BitVec.setWidth_eq]

end Sys2Proof.Machine
end

section
/-! Proofs: acceptance of a command word, NOP, and FINISH on both branches (42_commands.md R220, R225, R226,
R230, R235). -/

namespace Sys2Proof.Machine

/-! ### Acceptance through the bus -/

/-- A write to CMD is an acceptance, dropped while BUSY (20_memory.md R86; 10_state.md R43). -/
theorem busWrite_cmd (s : State) (v : Word) :
    busWrite s .w32 0x004 v = (.okay, if s.status.busy then s else s.accept v) :=
  busWrite_regOffset (r := .cmd) rfl v

/-- Settles O14: a write to CMD is dropped, is NOP, or is accepted. -/
theorem acceptanceTakesSnapshot : Obligations.AcceptanceTakesSnapshot := by
  intro s v
  refine ⟨fun hb => ?_, fun _ hv => ?_, fun hb hv => ?_⟩
  · rw [busWrite_cmd, if_pos hb]
  · rw [busWrite_cmd, hv]
    exact congrArg _ (ite_self s)
  · rw [busWrite_cmd, if_neg (by simp [hb]), s.accept_of_ne v hv]
    rfl

/-- NOP leaves every state as it is (42_commands.md R235). -/
theorem exec_nop (s : State) : exec .nop s = .next s :=
  congrArg _ (ite_self s)

/-- Settles O7: a busy block drops the word 0, and any other accepts it without effect. -/
theorem nopChangesNothing : Obligations.NopChangesNothing := by
  have hwrite (s : State) : busWrite s .w32 0x004 0x00000000 = (.okay, s) :=
    (busWrite_cmd s 0).trans (congrArg _ (ite_self s))
  refine ⟨rfl, ⟨_, decode_of_reservedBits (by decide)⟩, fun s => ⟨exec_nop s, hwrite s, fun hst => ?_⟩⟩
  rw [hwrite, show (0x008 : Nat) = regOffset .status from rfl, busRead_regOffset rfl, State.readReg, hst]
  rfl

/-! ### FINISH -/

/-- FINISH from any state writes the result and leaves the rest (42_commands.md R226): a state is also the
one after the acceptance of NOP. -/
theorem completesWith_finish (r : CmdResult) (s : State) : CompletesWith r s (s.finish r) :=
  completesWith_finish_accept r 0 s

/-! The result of each command fits the buffer, whatever the parameters are. -/

section
variable (c : Config) (q : Snapshot)

theorem wrapResult_fits : (wrapResult c q).fits c := by
  rw [wrapResult]
  cases he : operandError wrapLengthOk c q with
  | some e => exact operandError_ne_none he
  | none =>
    obtain ⟨h8, -, hmax⟩ := wrapLengthOk_iff.mp (operandError_eq_none.mp he).2
    have hinput : q.input.length = 8 * (q.length / 8) := by rw [q.input_length]; omega
    rw [CmdResult.fits, wrapCore_length _ _ hinput, Config.bufBytes]
    omega

theorem unwrapResult_fits : (unwrapResult c q).fits c := by
  rw [unwrapResult]
  cases he : operandError unwrapLengthOk c q with
  | some e => exact operandError_ne_none he
  | none =>
    obtain ⟨-, -, hmax⟩ := unwrapLengthOk_iff.mp (operandError_eq_none.mp he).2
    refine checkIv_fits _ ?_
    rw [unwrapCore_length, q.input_length, Config.bufBytes]
    omega

theorem wrapPadResult_fits : (wrapPadResult c q).fits c := by
  rw [wrapPadResult]
  cases he : operandError wrapPadLengthOk c q with
  | some e => exact operandError_ne_none he
  | none =>
    obtain ⟨h1, hmax⟩ := wrapPadLengthOk_iff.mp (operandError_eq_none.mp he).2
    rw [← q.input_length] at h1 hmax
    rw [CmdResult.fits, padWrapCore_length_eq_ceil8 _ h1, Config.bufBytes]
    omega

theorem unwrapPadResult_fits : (unwrapPadResult c q).fits c := by
  rw [unwrapPadResult]
  cases he : operandError unwrapPadLengthOk c q with
  | some e => exact operandError_ne_none he
  | none =>
    obtain ⟨-, -, hmax⟩ := unwrapPadLengthOk_iff.mp (operandError_eq_none.mp he).2
    refine checkPadded_fits _ _ ?_
    rw [padDecode_length, q.input_length, Config.bufBytes]
    omega

/-- Every result of `Execute` fits the buffer (42_commands.md R224, R226). -/
theorem execute_fits : (execute c q).fits c := by
  rw [execute]
  cases decode q.word with
  | illegal why => exact ErrCode.noConfusion
  | command i =>
    cases i with
    | nop => exact ErrCode.noConfusion
    | wrap => exact wrapResult_fits c q
    | unwrap => exact unwrapResult_fits c q
    | wrapPad => exact wrapPadResult_fits c q
    | unwrapPad => exact unwrapPadResult_fits c q

end

/-- Settles O15: the engine's step from FINISH is the completion, and each command's output has at most the
length of the buffer by its own length law. -/
theorem finishWritesResult : Obligations.FinishWritesResult := by
  refine ⟨fun s r hp => ?_, fun c q out hout => ?_⟩
  · rw [engineStep_of_finish hp]
    exact completesWith_finish r s
  · have hfits := execute_fits c q
    rwa [hout] at hfits

/-! ### What a failure leaves -/

/-- The result of a completion that reports an error is that error (60_exceptions.md R270). -/
theorem CompletesWith.eq_err {r : CmdResult} {s t : State} (h : CompletesWith r s t)
    (herr : t.status.err ≠ .none) : r = .err t.status.err := by
  rw [h.err] at herr ⊢
  cases r with
  | ok out => exact absurd rfl herr
  | err e => rfl

/-- Settles O16: both commands fail with the same code, and FINISH of an accepted command overwrites the
buffer and the key file. -/
theorem failureRevealsOnlyItsCode : Obligations.FailureRevealsOnlyItsCode := by
  intro s t t' i buf kekb hi hb ht ht' herr hsame
  rw [exec_of_idle hi hb, Host.Outcome.next.injEq] at ht
  rw [exec_of_idle (s := { s with buf := buf, kekb := kekb }) hi hb, Host.Outcome.next.injEq,
    finish_accept_overwrites _ (encode_ne_zero hi)] at ht'
  have hr := (ht ▸ completesWith_finish_accept _ _ s).eq_err herr
  have hr' := (ht' ▸ completesWith_finish_accept _ _ s).eq_err (hsame ▸ herr)
  rw [← ht, ← ht', hr, hr', hsame]

end Sys2Proof.Machine
end

section
/-! Proofs: what each command answers on a block that is not busy (42_commands.md R221 to R223, R229, R236 to
R239; 41_padding_extension.md R185 to R189). -/

namespace Sys2Proof.Machine

/-! ### What the four commands share: acceptance and the checks of the operands -/

theorem keySizeOk_iff {klen : BitVec 8} : keySizeOk klen = true ↔ klen = 16 ∨ klen = 24 ∨ klen = 32 := by
  simp [keySizeOk, or_assoc]

/-- A command whose operands fail a check answers the error of that check (42_commands.md R224). -/
theorem commandResult_of_operandError {i : Instr} {c : Config} {q : Snapshot} {e : ErrCode} (hi : i ≠ .nop)
    (h : operandError (fun c => lengthOk c i) c q = some e) : commandResult i c q = .err e := by
  cases i with
  | nop => exact absurd rfl hi
  | wrap =>
    have h : operandError wrapLengthOk c q = some e := h
    rw [commandResult, wrapResult, h]
  | unwrap =>
    have h : operandError unwrapLengthOk c q = some e := h
    rw [commandResult, unwrapResult, h]
  | wrapPad =>
    have h : operandError wrapPadLengthOk c q = some e := h
    rw [commandResult, wrapPadResult, h]
  | unwrapPad =>
    have h : operandError unwrapPadLengthOk c q = some e := h
    rw [commandResult, unwrapPadResult, h]

section
variable {i : Instr} {s : State} (hi : i ≠ .nop)
include hi

theorem accept_encode_status : (s.accept (encode i)).status = .accepted := by
  rw [s.accept_of_ne _ (encode_ne_zero hi)]

/-- A command with a key size that no cipher has fails with UNSUPPORTED_KEY_SIZE (42_commands.md R221). -/
theorem exec_of_unsupportedKey (hb : s.status.busy = false)
    (hkey : ¬(s.kekLen = 16 ∨ s.kekLen = 24 ∨ s.kekLen = 32)) :
    ∃ t, exec i s = .next t ∧ CompletesWith (.err .unsupportedKeySize) s t := by
  rw [← keySizeOk_iff, Bool.not_eq_true] at hkey
  rw [← commandResult_of_operandError (c := s.cfg) (q := s.takeSnapshot (encode i)) hi
    (operandError_of_key hkey)]
  exact exec_completesWith hi hb

/-- A command with a legal key and a length it does not take fails with INVALID_INPUT_LENGTH (42_commands.md
R222, R223). -/
theorem exec_of_invalidLength (hb : s.status.busy = false)
    (hkey : s.kekLen = 16 ∨ s.kekLen = 24 ∨ s.kekLen = 32)
    (hlen : ¬ lengthOk s.cfg i s.dataLen.toNat = true) :
    ∃ t, exec i s = .next t ∧ CompletesWith (.err .invalidInputLength) s t := by
  rw [Bool.not_eq_true] at hlen
  rw [← commandResult_of_operandError (c := s.cfg) (q := s.takeSnapshot (encode i)) hi
    (operandError_of_length (keySizeOk_iff.mpr hkey) hlen)]
  exact exec_completesWith hi hb

end

/-- A command that completed with an output reports its length, which a word holds (42_commands.md R226). -/
theorem CompletesWith.outLen_toNat {out : List Byte} {s t : State} (h : CompletesWith (.ok out) s t)
    {n : Nat} (hout : out.length = n) (hn : n < 2 ^ 32) : t.outLen.toNat = n := by
  rw [h.outLen, CmdResult.output, hout, BitVec.toNat_ofNat, Nat.mod_eq_of_lt hn]

/-! ### WRAP and UNWRAP -/

/-- Settles O8: `wrapLengthOk` is the length check written out, and a ready block answers `W(K, IV_KW, X)`. -/
theorem wrapMeaning : Obligations.WrapMeaning := by
  refine ⟨rfl, fun s hcfg hb => ⟨accept_encode_status (by simp), fun hkey h8 hmin hmax => ?_,
    exec_of_unsupportedKey (by simp) hb, fun hkey hlen => exec_of_invalidLength (by simp) hb hkey ?_⟩⟩
  · have hready : s.ready .wrap := ⟨hb, keySizeOk_iff.mpr hkey, wrapLengthOk_iff.mpr ⟨h8, hmin, hmax⟩⟩
    obtain ⟨t, ht, hcomplete⟩ := exec_completesWith (i := .wrap) (by simp) hb
    rw [commandResult_wrap_of_ready hready] at hcomplete
    refine ⟨t, ht, hcomplete, hcomplete.outLen_toNat ?_ ?_⟩
    · rw [wrapCore_length (n := s.dataLen.toNat / 8) _ _ (by rw [State.hostInput_length]; omega)]
      omega
    · have := Config.nMax_lt hcfg
      omega
  · rw [lengthOk, wrapLengthOk_iff, minBlocks]
    omega

theorem checkIv_of_ne {iv : Half} (h : iv ≠ ivKw) (p : List Byte) :
    checkIv iv p = .err .integrityCheckFailed := if_pos h

/-- Settles O9: `unwrapLengthOk` is the length check written out, and a ready block answers what the integrity
check makes of `W⁻¹(K, X)`. -/
theorem unwrapMeaning : Obligations.UnwrapMeaning := by
  refine ⟨rfl, fun s hcfg hb => ⟨accept_encode_status (by simp), fun hkey h8 hmin hmax => ?_,
    exec_of_unsupportedKey (by simp) hb, fun hkey hlen => exec_of_invalidLength (by simp) hb hkey ?_⟩⟩
  · have hready : s.ready .unwrap := ⟨hb, keySizeOk_iff.mpr hkey, unwrapLengthOk_iff.mpr ⟨h8, hmin, hmax⟩⟩
    obtain ⟨t, ht, hcomplete⟩ := exec_completesWith (i := .unwrap) (by simp) hb
    rw [commandResult_unwrap_of_ready hready] at hcomplete
    refine ⟨fun hiv => ?_, fun hiv => ?_⟩
    · rw [hiv, ← ivKw, checkIv_ivKw] at hcomplete
      refine ⟨t, ht, hcomplete, hcomplete.outLen_toNat ?_ (by omega)⟩
      rw [unwrapCore_length, State.hostInput_length]
      omega
    · rw [checkIv_of_ne hiv] at hcomplete
      exact ⟨t, ht, hcomplete⟩
  · rw [lengthOk, unwrapLengthOk_iff, minBlocks]
    omega

/-! ### WRAP_PAD and UNWRAP_PAD -/

/-- Settles O10: `wrapPadLengthOk` is the length check written out, and a ready block answers `WP(K, X)`. -/
theorem wrapPadMeaning : Obligations.WrapPadMeaning := by
  refine ⟨rfl, fun s hcfg hb => ⟨accept_encode_status (by simp), fun hkey h1 hmax => ?_,
    exec_of_unsupportedKey (by simp) hb, fun hkey hlen => exec_of_invalidLength (by simp) hb hkey ?_⟩⟩
  · have hready : s.ready .wrapPad := ⟨hb, keySizeOk_iff.mpr hkey, wrapPadLengthOk_iff.mpr ⟨h1, hmax⟩⟩
    obtain ⟨t, ht, hcomplete⟩ := exec_completesWith (i := .wrapPad) (by simp) hb
    rw [commandResult_wrapPad_of_ready hready] at hcomplete
    refine ⟨t, ht, hcomplete, hcomplete.outLen_toNat ?_ ?_⟩
    · rw [padWrapCore_length _ (by rwa [State.hostInput_length]), State.hostInput_length, ceil8]
    · have := Config.nMax_lt hcfg
      split <;> omega
  · rw [lengthOk, wrapPadLengthOk_iff, ceil8]
    omega

/-- Settles O11: the IV register and the candidate are the first stage of `UP`, and each of the four answers
is a branch of its checks. -/
theorem unwrapPadMeaning : Obligations.UnwrapPadMeaning := by
  refine ⟨rfl, fun s hcfg hb => ⟨accept_encode_status (by simp),
    fun hkey h8 h16 hmax iv q mli hstage hmli => ?_,
    exec_of_unsupportedKey (by simp) hb, fun hkey hlen => exec_of_invalidLength (by simp) hb hkey ?_⟩⟩
  · have hready : s.ready .unwrapPad :=
      ⟨hb, keySizeOk_iff.mpr hkey, unwrapPadLengthOk_iff.mpr ⟨h8, h16, hmax⟩⟩
    have hstage : padDecode (decryptBlock s.hostKey) s.hostInput = (iv, q) := by
      rw [hstage, padDecode, State.hostInput_length]
    have hq : q.length = 8 * (s.dataLen.toNat / 8 - 1) := by
      simpa [hstage] using padDecode_length (decryptBlock s.hostKey) s.hostInput
    obtain ⟨t, ht, hcomplete⟩ := exec_completesWith (i := .unwrapPad) (by simp) hb
    rw [commandResult_unwrapPad_of_ready hready, padUnwrapCore, hstage] at hcomplete
    rw [← ivMli_eq] at hmli
    subst hmli
    simp only [ne_eq, ← ivPrefix_eq_iff]
    refine ⟨by omega, fun hp => ⟨t, ht, ?_⟩, fun hp hl => ⟨t, ht, ?_⟩, fun hp hl hz hpad => ⟨t, ht, ?_⟩,
      fun hp hl hz => ⟨t, ht, ?_⟩⟩
    · rwa [checkPadded_of_prefix hp] at hcomplete
    · rwa [checkPadded_of_length hp hl] at hcomplete
    · rwa [hz, checkPadded_of_pad hp hl hpad] at hcomplete
    · rw [checkPadded_of_ok hp hl hz] at hcomplete
      exact ⟨hcomplete, hcomplete.outLen_toNat (List.length_take_of_le hl.2) (by omega)⟩
  · rw [lengthOk, unwrapPadLengthOk_iff]
    omega

end Sys2Proof.Machine
end

section
/-! Proofs: a command that fails a check makes no cipher call, and every busy block completes (42_commands.md
R224, R227, R228; 10_state.md R51). -/

namespace Sys2Proof.Machine

/-! ### Early failures -/

/-- A run that makes no cipher call up to FINISH makes none at all. -/
theorem Reaches.no_calls {s : State} {m : Nat} {r : CmdResult} (h : Reaches s m r 0) (k : Nat) :
    cipherCalls k s = 0 := by
  have hlater : cipherCalls (k + m) s = 0 := h.calls_after (Nat.le_add_left m k)
  rw [cipherCalls_add] at hlater
  exact Nat.eq_zero_of_add_eq_zero_right hlater

/-- A run from CHECK makes cipher calls only for a command that passes the checks (42_commands.md R228). -/
theorem cipherCalls_of_unchecked {s : State} (hp : s.phase = .check) (h : ∀ i, i ≠ .nop → ¬ s.checked i)
    (k : Nat) : cipherCalls k s = 0 := by
  obtain ⟨m, c, -, hreach, rfl | ⟨i, hchecked, hi⟩, -⟩ := reaches_execute hp
  · exact hreach.no_calls k
  · exact absurd hchecked (h i hi)

/-- Settles O25: the accepted word is no command, or one whose snapshot fails the check it failed. -/
theorem earlyFailureMakesNoCipherCall : Obligations.EarlyFailureMakesNoCipherCall := by
  intro s v k hv hfail
  rw [s.accept_of_ne v hv]
  refine cipherCalls_of_unchecked rfl (fun i _ hchecked => ?_) k
  obtain ⟨hrun, hkey, hlen⟩ := hchecked
  have hd : decode v = .command i := by rwa [State.running, takeSnapshot_word] at hrun
  rcases hfail with ⟨why, hwhy⟩ | ⟨i', hd', hbad⟩
  · cases hd.symm.trans hwhy
  · cases hd.symm.trans hd'
    rcases hbad with hbad | hbad
    · exact absurd (hbad.symm.trans hkey) (by simp)
    · exact absurd (hbad.symm.trans hlen) (by simp)

/-! ### Completion -/

/-- From VERIFY, FINISH is the next phase. -/
theorem reaches_of_verify {s : State} (h : s.phase = .verify) : ∃ r, Reaches s 1 r 0 := by
  obtain ⟨r, hr⟩ := verifyPhase_eq_toFinish s
  refine ⟨r, reaches_step (b := false) (inside_of_eq h inside_verify) (by rw [h]; rfl) (reaches_here ?_)⟩
  rw [engineStep, h]
  simp only [hr, State.toFinish_phase]

/-- From any position of the wrap rounds FINISH is at most the `6n` steps of all of them away. -/
theorem reaches_of_wrapStep {s : State} (hp : s.phase = .wrapStep) (hj : s.j ≤ 5) (hi1 : 1 ≤ s.i)
    (hi : s.i ≤ s.snap.blocks) : ∃ m ≤ 6 * s.snap.blocks, ∃ r c, Reaches s m r c := by
  have hpos : s.snap.blocks * s.j ≤ s.snap.blocks * 5 := Nat.mul_le_mul_left _ hj
  obtain ⟨m, hm⟩ : ∃ m, m + 1 + (s.snap.blocks * s.j + (s.i - 1)) = 6 * s.snap.blocks :=
    ⟨6 * s.snap.blocks - (s.snap.blocks * s.j + (s.i - 1)) - 1, by omega⟩
  obtain ⟨hrounds, hfinish⟩ := engineRun_wrapPhase m hp rfl hi1 hi hj hm
  exact ⟨m + 1, by omega, _, _, hfinish,
    fun k hk => inside_of_eq (hrounds k (Nat.le_of_lt_succ hk)) inside_wrapStep, rfl⟩

/-- From any position of the unwrap rounds VERIFY is at most the `6n` steps of all of them away. -/
theorem reaches_of_unwrapStep {s : State} (hp : s.phase = .unwrapStep) (hj : s.j ≤ 5) (hi1 : 1 ≤ s.i)
    (hi : s.i ≤ s.snap.blocks) : ∃ m ≤ 6 * s.snap.blocks + 1, ∃ r c, Reaches s m r c := by
  have hpos : s.snap.blocks * s.j ≤ s.snap.blocks * 5 := Nat.mul_le_mul_left _ hj
  obtain ⟨m, hm⟩ : ∃ m, m + 1 = s.snap.blocks * s.j + s.i := ⟨s.snap.blocks * s.j + s.i - 1, by omega⟩
  obtain ⟨hrounds, hverify, -⟩ := engineRun_unwrapPhase m hp rfl hi1 hi hj hm
  obtain ⟨r, hreach⟩ := reaches_of_verify hverify
  exact ⟨m + 1 + 1, by omega, r, _, reaches_run
    (fun k hk => inside_of_eq (hrounds k (Nat.le_of_lt_succ hk)) inside_unwrapStep) rfl hreach⟩

theorem reaches_of_shortEnc {s : State} (h : s.phase = .shortEnc) : ∃ r c, Reaches s 1 r c := by
  have hstep : engineStep s = s.shortEncPhase := by rw [engineStep, h]
  exact ⟨_, _, reaches_step (inside_of_eq h inside_shortEnc) rfl (reaches_here (by rw [hstep]; rfl))⟩

theorem reaches_of_shortDec {s : State} (h : s.phase = .shortDec) : ∃ r c, Reaches s 2 r c := by
  have hstep : engineStep s = s.shortDecPhase := by rw [engineStep, h]
  obtain ⟨r, hreach⟩ := reaches_of_verify (s := engineStep s) (by rw [hstep]; rfl)
  exact ⟨r, _, reaches_step (inside_of_eq h inside_shortDec) rfl hreach⟩

/-- From every phase of a busy block FINISH is at most `6 * N_MAX + 2` steps away (42_commands.md R227). -/
theorem reaches_of_busy {s : State} (h : s.Inv) (hbusy : s.phase ≠ .idle) :
    ∃ m ≤ 6 * s.cfg.nMax + 2, ∃ r c, Reaches s m r c := by
  have hok := h.phaseOk
  rw [State.phaseOk] at hok
  cases hp : s.phase with
  | idle => exact absurd hp hbusy
  | check =>
    obtain ⟨m, c, hm, hreach, -⟩ := reaches_execute hp
    exact ⟨m, hm, _, c, hreach⟩
  | wrapStep =>
    rw [hp] at hok
    obtain ⟨hchecked, hj, hi1, hi⟩ := hok
    have hle : s.snap.blocks ≤ s.cfg.nMax := hchecked.elim (·.blocks_le) (·.1.blocks_le)
    obtain ⟨m, hm, hreach⟩ := reaches_of_wrapStep hp hj hi1 hi
    exact ⟨m, by omega, hreach⟩
  | unwrapStep =>
    rw [hp] at hok
    obtain ⟨hchecked, hj, hi1, hi⟩ := hok
    have hle : s.snap.blocks ≤ s.cfg.nMax := hchecked.elim (·.blocks_le) (·.1.blocks_le)
    obtain ⟨m, hm, hreach⟩ := reaches_of_unwrapStep hp hj hi1 hi
    exact ⟨m, by omega, hreach⟩
  | shortEnc => exact ⟨1, by omega, reaches_of_shortEnc hp⟩
  | shortDec => exact ⟨2, by omega, reaches_of_shortDec hp⟩
  | verify =>
    obtain ⟨r, hreach⟩ := reaches_of_verify hp
    exact ⟨1, by omega, r, 0, hreach⟩
  | finish r => exact ⟨0, by omega, r, 0, reaches_here hp⟩

/-- With no turn left a busy engine moves (log 7). -/
theorem step_of_busy {s : State} (hturns : s.turns = []) (hbusy : s.phase ≠ .idle) :
    step s = .next (engineStep s) := by
  rw [step, hturns]
  simp only [freeTurn]
  cases hp : s.phase with
  | idle => exact absurd hp hbusy
  | _ => rfl

@[simp] theorem engineStep_turns (s : State) : (engineStep s).turns = s.turns := by
  rcases engineStep_cases s with ⟨-, hstep⟩ | ⟨r, -, hstep⟩ | ⟨-, -, hsame, -⟩
  · rw [hstep]
  · rw [hstep, State.finish_turns]
  · rw [hsame]

/-- With no turn left the machine runs as its engine does while that is busy. -/
theorem runSteps_of_busy {n : Nat} {s : State} (hturns : s.turns = [])
    (hbusy : ∀ k < n, (engineRun k s).phase ≠ .idle) : runSteps n s = .next (engineRun n s) := by
  induction n generalizing s with
  | zero => rfl
  | succ n ih =>
    rw [runSteps, step_of_busy hturns (hbusy 0 n.succ_pos)]
    exact ih (by rwa [engineStep_turns]) fun k hk => hbusy (k + 1) (by omega)

/-- Settles O26: the machine runs as the engine, which reaches FINISH and completes there. -/
theorem busyCommandCompletes : Obligations.BusyCommandCompletes := by
  intro s hinv hturns hbusy
  obtain ⟨m, hm, r, c, hreach⟩ := reaches_of_busy hinv hbusy
  have hrun := runSteps_of_busy hturns fun k hk => (hreach.before_finish (Nat.le_of_lt_succ hk)).2
  rw [engineRun_of_reaches hreach] at hrun
  have hcomplete := completesWith_finish r s
  exact ⟨m + 1, _, by omega, hrun, hcomplete.phase, hcomplete.busy, hcomplete.done, hcomplete.host,
    hcomplete.responses⟩

end Sys2Proof.Machine
end

section
/-! Proofs: a value wrapped under one initial value fails the unwrap that looks for the other (42_commands.md
R229, R237, R239; 41_padding_extension.md R186; 95_test_vectors.md T13). -/

namespace Sys2Proof.Machine

/-! ### The two initial values differ in their first four bytes -/

theorem ivPrefix_ivKw_ne : ivPrefix ivKw ≠ aivPrefix := by decide

theorem aiv_ne_ivKw (mli : Nat) : aiv mli ≠ ivKw :=
  fun h => ivPrefix_ivKw_ne (h ▸ ivPrefix_aiv mli)

/-- WRAP_PAD of more than 8 bytes is the wrap core under the AIV (41_padding_extension.md R184). -/
theorem padWrapCore_of_long (e : Block → Block) {p : List Byte} (h : 8 < p.length) :
    padWrapCore e p = wrapCore e (aiv p.length) (padPlaintext p) := by
  have hceil := le_ceil8 p.length
  rw [padWrapCore, if_neg]
  rw [padPlaintext_length]
  omega

/-! ### A wrapped value of two or more blocks, unwrapped under the reloaded key -/

section
variable {s t : State} {iv : Half} {p : List Byte} {n : Nat}
  (h : CompletesWith (.ok (wrapCore (encryptBlock s.hostKey) iv p)) s t) (hcfg : s.cfg.wf = true)
  (hkey : keySizeOk s.kekLen = true) (hp : p.length = 8 * n) (h2 : 2 ≤ n) (hn : n ≤ s.cfg.nMax)
include h hcfg hkey hp h2 hn

/-- UNWRAP compares the initial value that the value was wrapped with (42_commands.md R229). -/
theorem exec_unwrap_of_wrapCore :
    ∃ u, exec .unwrap (t.reloaded s.kekb) = .next u ∧
      CompletesWith (checkIv iv p) (t.reloaded s.kekb) u := by
  have hout := wrapCore_length (encryptBlock s.hostKey) iv hp
  have hmax := Config.nMax_lt hcfg
  have hmin : minBlocks s.cfg ≤ 2 := by unfold minBlocks; split <;> omega
  have hready : (t.reloaded s.kekb).ready .unwrap :=
    h.reloaded_ready (i := .unwrap) (by omega) hkey
      (unwrapLengthOk_iff.mpr ⟨by omega, by omega, by omega⟩) _
  obtain ⟨u, hu, hcomplete⟩ := exec_completesWith (i := .unwrap) (by simp) hready.1
  rw [commandResult_unwrap_of_ready hready, h.reloaded_hostInput (by omega), h.reloaded_hostKey,
    unwrapCore_wrapCore (decryptBlock_encryptBlock _) iv hp] at hcomplete
  exact ⟨u, hu, hcomplete⟩

/-- UNWRAP_PAD checks the initial value that the value was wrapped with (41_padding_extension.md R186 to
R188). -/
theorem exec_unwrapPad_of_wrapCore :
    ∃ u, exec .unwrapPad (t.reloaded s.kekb) = .next u ∧
      CompletesWith (checkPadded t.cfg.padZeroCheck iv p) (t.reloaded s.kekb) u := by
  have hout := wrapCore_length (encryptBlock s.hostKey) iv hp
  have hmax := Config.nMax_lt hcfg
  have hready : (t.reloaded s.kekb).ready .unwrapPad :=
    h.reloaded_ready (i := .unwrapPad) (by omega) hkey
      (unwrapPadLengthOk_iff.mpr ⟨by omega, by omega, by omega⟩) _
  obtain ⟨u, hu, hcomplete⟩ := exec_completesWith (i := .unwrapPad) (by simp) hready.1
  rw [commandResult_unwrapPad_of_ready hready, h.reloaded_hostInput (by omega), h.reloaded_hostKey,
    padUnwrapCore, padDecode, if_neg (by omega),
    unwrapCore_wrapCore (decryptBlock_encryptBlock _) iv hp] at hcomplete
  exact ⟨u, hu, hcomplete⟩

end

/-- Settles O29: `W⁻¹` recovers the other variant's initial value, which is not the one compared with. -/
theorem crossVariantUnwrapFails : Obligations.CrossVariantUnwrapFails := by
  refine ⟨fun s hcfg hready h9 => ?_, fun s hcfg hready h16 => ?_⟩
  · obtain ⟨hb, hkey, hlen⟩ := hready
    obtain ⟨-, hmax⟩ := wrapPadLengthOk_iff.mp hlen
    have hceil := le_ceil8 s.dataLen.toNat
    obtain ⟨t, ht, hwrapped⟩ := exec_completesWith (i := .wrapPad) (by simp) hb
    rw [commandResult_wrapPad_of_ready ⟨hb, hkey, hlen⟩,
      padWrapCore_of_long _ (by rwa [State.hostInput_length])] at hwrapped
    obtain ⟨u, hu, hfailed⟩ := exec_unwrap_of_wrapCore hwrapped hcfg hkey (n := ceil8 s.dataLen.toNat)
      (by rw [padPlaintext_length, State.hostInput_length]) (by omega) hmax
    rw [checkIv_of_ne (aiv_ne_ivKw _)] at hfailed
    exact ⟨t, ht, u, hu, hfailed⟩
  · obtain ⟨hb, hkey, hlen⟩ := hready
    obtain ⟨h8, -, hmax⟩ := wrapLengthOk_iff.mp hlen
    obtain ⟨t, ht, hwrapped⟩ := exec_completesWith (i := .wrap) (by simp) hb
    rw [commandResult_wrap_of_ready ⟨hb, hkey, hlen⟩] at hwrapped
    obtain ⟨u, hu, hfailed⟩ := exec_unwrapPad_of_wrapCore hwrapped hcfg hkey (n := s.dataLen.toNat / 8)
      (by rw [State.hostInput_length]; omega) (by omega) hmax
    rw [checkPadded_of_prefix ivPrefix_ivKw_ne] at hfailed
    exact ⟨t, ht, u, hu, hfailed⟩

end Sys2Proof.Machine
end

section
/-! Proofs: the order of the errors, the completion interrupt, and a host that waits for it or has no program
left (60_exceptions.md R272, R276, R285; 95_test_vectors.md P3). -/

namespace Sys2Proof.Machine

/-! ### The first failing check -/

/-- The checks of UNWRAP_PAD in their order: prefix, length field, pad bytes (41_padding_extension.md R186 to
R188). -/
theorem checkPadded_errCode (z : Bool) (iv : Half) (q : List Byte) :
    (checkPadded z iv q).errCode =
      if ivPrefix iv ≠ aivPrefix then .integrityCheckFailed
      else if mliConsistent (ivMli iv) q.length = false then .lengthFieldInconsistent
      else if z = true ∧ ∃ b ∈ q.drop (ivMli iv), b ≠ 0 then .integrityCheckFailed
      else .none := by
  simp only [checkPadded, Bool.not_eq_true', Bool.and_eq_true, List.any_eq_true, decide_eq_true_eq]
  split
  · rfl
  · split
    · rfl
    · split <;> rfl

/-- Settles O13: a command with a refused operand reports the first that is refused, and a ready one the
first check that its own result fails; WRAP and WRAP_PAD have none. -/
theorem firstFailingCheckIsReported : Obligations.FirstFailingCheckIsReported := by
  refine ⟨fun s v why hd hb => ?_, fun s i hi hb => ?_⟩
  · obtain ⟨-, hrun, hcomplete⟩ := illegalWordCompletesWithError s v why hd hb
    exact ⟨_, hrun, hcomplete.err⟩
  · by_cases hkey : s.kekLen = 16 ∨ s.kekLen = 24 ∨ s.kekLen = 32
    · rw [if_neg (not_not.mpr hkey)]
      by_cases hlen : lengthOk s.cfg i s.dataLen.toNat = false
      · obtain ⟨t, ht, hcomplete⟩ := exec_of_invalidLength hi hb hkey (by simp [hlen])
        exact ⟨t, ht, by rw [hcomplete.err, if_pos hlen]; rfl⟩
      · have hready : s.ready i := ⟨hb, keySizeOk_iff.mpr hkey, Bool.eq_true_of_not_eq_false hlen⟩
        obtain ⟨t, ht, hcomplete⟩ := exec_completesWith hi hb
        refine ⟨t, ht, ?_⟩
        rw [hcomplete.err, if_neg hlen]
        cases i with
        | nop => exact absurd rfl hi
        | wrap =>
          rw [commandResult_wrap_of_ready hready]
          simp [CmdResult.errCode]
        | unwrap =>
          rw [commandResult_unwrap_of_ready hready, ← ivKw]
          by_cases hiv : (unwrapCore (decryptBlock s.hostKey) s.hostInput).2 = ivKw
          · rw [hiv, checkIv_ivKw]
            simp [CmdResult.errCode]
          · rw [checkIv_of_ne hiv, if_pos ⟨rfl, hiv⟩, CmdResult.errCode]
        | wrapPad =>
          rw [commandResult_wrapPad_of_ready hready]
          simp [CmdResult.errCode]
        | unwrapPad =>
          rw [commandResult_unwrapPad_of_ready hready, padUnwrapCore, checkPadded_errCode]
          simp [aivPrefix]
    · obtain ⟨t, ht, hcomplete⟩ := exec_of_unsupportedKey hi hb hkey
      exact ⟨t, ht, by rw [hcomplete.err, if_pos hkey]; rfl⟩

/-! ### The host's turn without a write -/

/-- The two turns of the host differ only where it writes (10_state.md R52). -/
theorem commandTurn_eq_accessTurn {s : State} (h : ∀ w off v ops, s.host ≠ .write w off v :: ops) :
    commandTurn s = accessTurn s := by
  unfold commandTurn
  split
  · exact absurd ‹_› (h _ _ _ _)
  · rfl
  · rfl
  · rfl
  · rfl

theorem accessTurn_of_no_program {s : State} (h : s.host = []) : accessTurn s = .next s := by
  rw [accessTurn, h]

theorem engineStep_of_idle {s : State} (h : s.phase = .idle) : engineStep s = s := by
  rw [engineStep, h]

/-- Settles O6: with no turn left an idle block serves the host, which has no access to make. -/
theorem idleMachineStays : Obligations.IdleMachineStays := by
  intro s hp
  refine ⟨engineStep_of_idle hp, fun hturns hhost => ?_⟩
  rw [step_of_idle hturns hp, commandTurn_eq_accessTurn (by simp [hhost]), accessTurn_of_no_program hhost]

/-! ### The interrupt -/

theorem irqAtHost_iff {s : State} :
    s.irqAtHost = true ↔ s.ie = true ∧ s.status.done = true ∧ s.cfg.irqRouted = true := by
  simp [State.irqAtHost, State.irq, and_assoc]

theorem accessTurn_of_waitIrq {s : State} {ops : List HostOp} (h : s.host = .waitIrq :: ops) :
    accessTurn s = .next (if s.irqAtHost then { s with host := ops } else s) := by
  rw [accessTurn, h]
  rfl

/-- Settles O51: a wait writes nothing, so both turns are one, and it ends where `irq` reaches the host. -/
theorem waitEndsWithInterrupt : Obligations.WaitEndsWithInterrupt := by
  intro s ops hs
  rw [commandTurn_eq_accessTurn (by simp [hs]), accessTurn_of_waitIrq hs]
  refine ⟨fun hie hdone hrouted => ?_, fun hoff => ?_⟩
  · rw [if_pos (irqAtHost_iff.mpr ⟨hie, hdone, hrouted⟩)]
    exact ⟨rfl, rfl⟩
  · have hirq : ¬ s.irqAtHost = true := by
      rw [irqAtHost_iff]
      rintro ⟨hie, hdone, hrouted⟩
      simp [hie, hdone, hrouted] at hoff
    rw [if_neg hirq]
    exact ⟨rfl, rfl⟩

theorem busWrite_ctrl (s : State) (v : Word) :
    busWrite s .w32 0x000 v = (.okay, { s with ie := v.getLsbD 0 }) :=
  busWrite_regOffset (r := .ctrl) rfl v

/-- A write to STATUS is the W1C of DONE, busy or not (10_state.md R36). -/
theorem busWrite_status (s : State) (v : Word) :
    busWrite s .w32 0x008 v =
      (.okay, { s with status := { s.status with done := s.status.done && !v.getLsbD 1 } }) := by
  rw [← Status.writeW1C_eq]
  exact busWrite_regOffset (r := .status) rfl v

/-- A completion raises `irq` where it is enabled, whatever the result (60_exceptions.md R276). -/
theorem CompletesWith.irq_eq {r : CmdResult} {s t : State} (h : CompletesWith r s t) : t.irq = s.ie := by
  rw [State.irq, h.ie, h.done, Bool.and_true]

theorem irq_of_not_done {s : State} (h : s.status.done = false) : s.irq = false := by
  rw [State.irq, h, Bool.and_false]

/-- Settles O38: `irq` follows DONE, which FINISH sets and the W1C, acceptance and reset clear, and IE. -/
theorem interruptIsLevelOfDone : Obligations.InterruptIsLevelOfDone := by
  intro s
  refine ⟨rfl, fun v i hv hd hb => ?_, fun v why hd hb => ?_, fun r hp => ?_, fun v hv => ?_,
    fun v hv hb => ?_, irq_of_not_done rfl, fun v hv hdone => ?_, ?_⟩
  · have hi : i ≠ .nop := by
      rintro rfl
      exact hv ((decode_nop_iff v).mp hd)
    obtain ⟨t, ht, hcomplete⟩ := exec_completesWith hi hb
    exact ⟨t, ht, hcomplete.irq_eq⟩
  · obtain ⟨-, -, hcomplete⟩ := illegalWordCompletesWithError s v why hd hb
    exact hcomplete.irq_eq
  · rw [engineStep_of_finish hp]
    exact (completesWith_finish r s).irq_eq
  · rw [busWrite_status]
    exact irq_of_not_done (by simp [hv])
  · rw [busWrite_cmd, if_neg (by simp [hb]), s.accept_of_ne v hv]
    exact irq_of_not_done rfl
  · rw [busWrite_ctrl, State.irq, hv, hdone, Bool.and_self]
  · obtain ⟨-, -, hnop⟩ := nopChangesNothing
    obtain ⟨-, hwrite, -⟩ := hnop s
    rw [hwrite]

end Sys2Proof.Machine
end

section
/-! Proofs: a register read straight after it is written, the key file after a command, and reset (10_state.md
R42, R54; 70_reset_and_hazards.md R300, R301, R311, R316). -/

namespace Sys2Proof.Machine

/-! ### A read straight after a write -/

/-- The low `k` bits of a word, as a field and under a mask. -/
theorem zeroExtend_extractLsb'_zero (v : Word) {k : Nat} (hk : k ≤ 32) :
    (v.extractLsb' 0 k).zeroExtend 32 = v &&& BitVec.ofNat 32 (2 ^ k - 1) := by
  have hpow : 2 ^ k ≤ 2 ^ 32 := Nat.pow_le_pow_right (by omega) hk
  apply BitVec.eq_of_toNat_eq
  rw [BitVec.zeroExtend, BitVec.toNat_setWidth_of_le hk, BitVec.extractLsb'_toNat, Nat.shiftRight_zero,
    BitVec.toNat_and, BitVec.toNat_ofNat, Nat.mod_eq_of_lt (by omega : 2 ^ k - 1 < 2 ^ 32),
    Nat.and_two_pow_sub_one_eq_mod]

theorem bit_getLsbD_zero (v : Word) : bit (v.getLsbD 0) = v &&& 0x00000001 := by
  refine Eq.trans ?_ BitVec.and_one_eq_setWidth_ofBool_getLsbD.symm
  cases v.getLsbD 0 <;> rfl

/-- A write to a register that exists, and a read of it straight after (70_reset_and_hazards.md R316). -/
theorem busRead_busWrite_regOffset {s : State} {r : HostReg} (h : r.wf s.cfg = true) (v : Word) :
    busRead (busWrite s .w32 (regOffset r) v).2 .w32 (regOffset r) =
      (.okay, (s.writeReg r v).readReg r) := by
  rw [busRead_regOffset (by rwa [busWrite_cfg]), busWrite_regOffset h]

/-- Settles O35: each register reads what its write left in it, and on a block that is not busy no write is
dropped. -/
theorem readAfterWrite : Obligations.ReadAfterWrite := by
  intro s v hb hbuf
  have hopen : ¬ s.status.busy = true := by simp [hb]
  refine ⟨?_, ?_, ?_, ?_, fun w hw => busRead_busWrite_regOffset (r := .kek w) (decide_eq_true hw) v,
    fun k hk => ?_, busRead_busWrite_regOffset (r := .cmd) rfl v, ?_, ?_⟩
  · rw [← bit_getLsbD_zero]
    exact busRead_busWrite_regOffset (r := .ctrl) rfl v
  · rw [busWrite_status, show (0x008 : Nat) = regOffset .status from rfl, busRead_regOffset rfl,
      State.readReg, Status.word_eq_ofNat, hb]
    rfl
  · refine (busRead_busWrite_regOffset (r := .kekLen) rfl v).trans ?_
    rw [State.writeReg, if_neg hopen]
    exact congrArg _ (zeroExtend_extractLsb'_zero v (k := 8) (by omega))
  · refine (busRead_busWrite_regOffset (r := .dataLen) rfl v).trans ?_
    rw [State.writeReg, if_neg hopen, State.readReg]
  · refine (busRead_busWrite_regOffset (r := .buf k) (HostReg.wf_buf hk) v).trans ?_
    rw [State.writeReg, if_neg hopen, State.readReg, Memory.readWord_writeWord hbuf]
  · exact (busRead_busWrite_regOffset (r := .outLen) rfl v).trans (busRead_regOffset (r := .outLen) rfl).symm
  · rw [busRead_caps, busRead_caps, busWrite_cfg]

/-! ### The key file after a command -/

theorem Memory.readBytes_nil (a n : Nat) : Memory.readBytes [] a n = List.replicate n 0 := by
  change (List.range n).map (fun _ => (0 : Byte)) = _
  rw [List.map_const', List.length_range]

/-- The key of the next command is all zero (70_reset_and_hazards.md R311). -/
theorem CompletesWith.hostKey {r : CmdResult} {s t : State} (h : CompletesWith r s t) :
    t.hostKey = List.replicate s.kekLen.toNat 0 := by
  rw [State.hostKey, h.kekb, Memory.readBytes_nil, h.kekLen]

/-- Settles O18: a completed command leaves an empty key file and KEK_LEN as it was, and the host's next
buffer and DATA_LEN change neither. -/
theorem keyMustBeReloaded : Obligations.KeyMustBeReloaded := by
  intro s t i hi hb ht
  obtain ⟨t', ht', hcomplete⟩ := exec_completesWith hi hb
  obtain rfl : t' = t := Host.Outcome.next.inj (ht'.symm.trans ht)
  refine ⟨fun a => by rw [hcomplete.kekb]; rfl, hcomplete.hostKey, fun d b hready => ?_⟩
  obtain ⟨u, hu, hwrapped⟩ := exec_completesWith (i := .wrap) (by simp) hready.1
  rw [commandResult_wrap_of_ready hready] at hwrapped
  refine ⟨u, hu, ?_⟩
  rwa [← hcomplete.hostKey]

/-! ### Reset -/

/-- Settles O39: a reset turn is `resetBlock`, whatever runs. -/
theorem resetClearsBlock : Obligations.ResetClearsBlock := by
  intro s ts hturns
  refine ⟨_, step_of_turns hturns, rfl, irq_of_not_done rfl, fun _ => ⟨rfl, rfl⟩, ?_⟩
  rw [busRead_caps, busRead_caps, State.resetBlock_cfg]

/-- After reset every register but CAPS holds 0 (10_state.md R54). -/
theorem readReg_reset {r : HostReg} (h : r ≠ .caps) : State.reset.readReg r = 0 := by
  cases r with
  | caps => exact absurd rfl h
  | _ => rfl

/-- An offset other than that of CAPS reaches a register that holds 0, or none (20_memory.md R85). -/
theorem busRead_reset_data {off : Nat} (h : off ≠ 0x018) : (busRead State.reset .w32 off).2 = 0 := by
  cases htarget : decodeOffset State.reset.cfg off with
  | none => rw [busRead_of_target_none (w := .w32) htarget]
  | some r =>
    obtain ⟨hwf, rfl⟩ := wf_and_regOffset_of_decodeOffset htarget
    have hr : r ≠ .caps := by
      rintro rfl
      exact h rfl
    rw [busRead_regOffset hwf, readReg_reset hr]

/-- Settles O41: the reset state is an idle machine with no turn and no program, which stays. -/
theorem resetStateReadsZero : Obligations.ResetStateReadsZero := by
  obtain ⟨-, hstays⟩ := idleMachineStays State.reset rfl
  refine ⟨rfl, rfl, hstays rfl rfl, busRead_caps State.reset, fun off r w hoff hread => ?_⟩
  rw [← busRead_reset_data hoff, hread]

end Sys2Proof.Machine
end
